-- ==== Sys2Proof/Syntax.lean ====
section
/-!
DEFINITION. The commands of the block, one constructor for each row of spec/opcode_table.json (30_encoding.md R76, R77).
A command has no register field, no immediate and no mode bit (R72); the two illegal rows carry the bits their row
leaves free, so that no bit of a command code is lost.
-/

namespace Sys2Proof

inductive Instr where
  /-- OP 0, R94 -/
  | nop
  /-- OP 1, R86 -/
  | embed
  /-- OP 2, R89 -/
  | extract
  /-- OP 3, R85 -/
  | check
  /-- OP 4, R88 -/
  | declen
  /-- OP 5, R91 -/
  | map
  /-- OP 6, R92 -/
  | wrbit
  /-- OP 7, R93 -/
  | rdbit
  /-- OP 8, R83 -/
  | getpix
  /-- OP 9, R84 -/
  | setpix
  /-- OP 10 and 11, R95: `x` is OP[0] -/
  | illegal101x (x : BitVec 1)
  /-- OP 12 to 15, R95: `x` is OP[1:0] -/
  | illegal11xx (x : BitVec 2)
  deriving DecidableEq, Repr

end Sys2Proof
end

