-- ==== Sys2Proof/Word.lean ====
section
/-!
DEFINITION. The word types of the mapper (spec 00_scope.md R9, R10): names for the widths the spec fixes, and nothing
that computes.
-/

namespace Sys2Proof

/-- One channel value or one payload cell: "unsigned 8-bit" (R9). -/
abbrev Byte := BitVec 8

/-- Room for a `DIM_BITS`-wide register (WIDTH, HEIGHT, ARG_X, ARG_Y, MAP_X, MAP_Y). The spec leaves `DIM_BITS` open
between 1 and 30 (R10), so thirty bits hold such a register of every implementation; that a value is below
`2 ^ dimBits` is a clause of `State.Wf`, and every write keeps it. -/
abbrev Dim := BitVec 30

/-- Data of the host port, `PORT_BITS` = 64 (R10). -/
abbrev PortWord := BitVec 64

/-- A register index of the host port, `REG_IDX_BITS` = 5 (R10). -/
abbrev RegIndex := BitVec 5

/-- A payload address, `PAY_ADDR_BITS` = 32 (R10). -/
abbrev PayAddr := BitVec 32

end Sys2Proof
end

