-- ==== Sys2Proof/Decode.lean ====
section
/-!
DEFINITION. Decoding a CMD write and encoding a command (30_encoding.md R72, R76 to R79). The decoder is total and
refuses nothing: R76 gives every 4-bit code exactly one row.
-/

namespace Sys2Proof

/-- OP[3:0], bits [3:0] of the data of a CMD write (R72). The other sixty bits are ignored (R78). -/
def opField (d : PortWord) : BitVec 4 := d.extractLsb' 0 4

/-- The opcode map of R76 and R77. -/
def decodeOp (op : BitVec 4) : Instr :=
  match op.toNat with
  | 0 => .nop
  | 1 => .embed
  | 2 => .extract
  | 3 => .check
  | 4 => .declen
  | 5 => .map
  | 6 => .wrbit
  | 7 => .rdbit
  | 8 => .getpix
  | 9 => .setpix
  | 10 => .illegal101x (op.setWidth 1)
  | 11 => .illegal101x (op.setWidth 1)
  | _ => .illegal11xx (op.setWidth 2)

/-- The command a CMD write with data `d` starts (R20, R76). -/
def decodeCommand (d : PortWord) : Instr := decodeOp (opField d)

/-- The command, if any, that the host write of `d` to register index `i` starts: index 0 is CMD (R18, R20). -/
def commandOf (i : RegIndex) (d : PortWord) : Option Instr :=
  if i = 0#5 then some (decodeCommand d) else none

/-- The command code of R76; the two illegal rows are 101x and 11xx (R77). -/
def encode : Instr → BitVec 4
  | .nop => 0b0000#4
  | .embed => 0b0001#4
  | .extract => 0b0010#4
  | .check => 0b0011#4
  | .declen => 0b0100#4
  | .map => 0b0101#4
  | .wrbit => 0b0110#4
  | .rdbit => 0b0111#4
  | .getpix => 0b1000#4
  | .setpix => 0b1001#4
  | .illegal101x x => 0b101#3 ++ x
  | .illegal11xx x => 0b11#2 ++ x

/-- The data of the CMD write that issues a command, as the record `W 00 000000000000000o` writes it (R73). -/
def commandData (i : Instr) : PortWord := (encode i).setWidth 64

/-- The mnemonic of R76, as spec/opcode_table.json spells it. -/
def mnemonic : Instr → String
  | .nop => "NOP"
  | .embed => "EMBED"
  | .extract => "EXTRACT"
  | .check => "CHECK"
  | .declen => "DECLEN"
  | .map => "MAP"
  | .wrbit => "WRBIT"
  | .rdbit => "RDBIT"
  | .getpix => "GETPIX"
  | .setpix => "SETPIX"
  | .illegal101x _ => "ILLEGAL_101x"
  | .illegal11xx _ => "ILLEGAL_11xx"

/-- One row of the opcode table: a code is of the row when it agrees with `pattern` on the bits of `mask`. -/
structure OpRow where
  name : String
  pattern : BitVec 4
  mask : BitVec 4
  deriving DecidableEq, Repr

/-- spec/opcode_table.json, row by row ("match" and "mask"). -/
def opcodeTable : List OpRow :=
  [⟨"NOP", 0x0#4, 0xF#4⟩, ⟨"EMBED", 0x1#4, 0xF#4⟩, ⟨"EXTRACT", 0x2#4, 0xF#4⟩, ⟨"CHECK", 0x3#4, 0xF#4⟩,
   ⟨"DECLEN", 0x4#4, 0xF#4⟩, ⟨"MAP", 0x5#4, 0xF#4⟩, ⟨"WRBIT", 0x6#4, 0xF#4⟩, ⟨"RDBIT", 0x7#4, 0xF#4⟩,
   ⟨"GETPIX", 0x8#4, 0xF#4⟩, ⟨"SETPIX", 0x9#4, 0xF#4⟩] ++
  [⟨"ILLEGAL_101x", 0xA#4, 0xE#4⟩, ⟨"ILLEGAL_11xx", 0xC#4, 0xC#4⟩]

/-- The rows of the table a code belongs to. -/
def rowsOf (op : BitVec 4) : List OpRow := opcodeTable.filter (fun r => op &&& r.mask == r.pattern)

/-- The port data that holds a table word: its `nbits` bits, every higher bit zero. -/
def tableData (nbits w : Nat) : PortWord := BitVec.ofNat 64 (w % 2 ^ nbits)

/-- The command the decoder reads from a table word. A word longer than the 64 bits of the port is none. -/
def decodeTableWord (nbits w : Nat) : Option Instr :=
  if nbits ≤ 64 then commandOf 0#5 (tableData nbits w) else none

end Sys2Proof
end

