-- ==== Sys2Proof/Config.lean ====
section
/-!
DEFINITION. What an implementation fixes. The spec leaves exactly one parameter open, `DIM_BITS` (R10, 92 D9, 93 I8).
The state carries that parameter (`State.dimBits`), so a statement about every state is a statement about every
`DIM_BITS`; the number below is only the one `State.reset` is built with.
-/

namespace Sys2Proof.Config

/-- DESIGN CHOICE (log entry 1), unsafe: the `DIM_BITS` of the machine `State.reset` describes. The spec allows every
value from 1 to 30 (R10); 30 is the one that refuses the fewest grids. -/
def dimBits : Nat := 30

end Sys2Proof.Config
end

