-- ==== Sys2Proof/Machine/HostOp.lean ====
section
/-!
DEFINITION. What the host can do to the block and what it gets back (10_state.md R17), the names of the registers (R18),
and the lines of the host program notation (30_encoding.md R80, R81).
-/

namespace Sys2Proof.Machine

/-- The seven host operations of R17; there is no other. -/
inductive HostOp where
  | regWr (i : RegIndex) (d : PortWord)
  | regRd (i : RegIndex)
  | loadGrid (w h : Nat) (img : List Byte)
  | dumpGrid
  | payWr (a : PayAddr) (v : Byte)
  | payRd (a : PayAddr)
  | reset
  deriving DecidableEq, Repr

/-- What an operation of the host returns to it (R17, column "result"). -/
inductive Reply where
  /-- REG_RD -/
  | word (d : PortWord)
  /-- DUMP_GRID -/
  | image (img : List Byte)
  /-- PAY_RD -/
  | byte (v : Byte)
  deriving DecidableEq, Repr

/-- The eighteen assigned registers of R18. -/
inductive RegName where
  | cmd | status | config | width | height | payLen | lenOut | needBits | availBits | argK | bitIo | argX | argY
  | pixData | mapX | mapY | mapCh | mapBit
  deriving DecidableEq, Repr

/-- One line of a host program (R80), pseudo-operations included (R81). Numbers are the naturals the line writes; an
image is named and given beside the program. -/
inductive Line where
  /-- `wr NAME, v` -/
  | wr (r : RegName) (v : Nat)
  /-- `rd NAME` -/
  | rd (r : RegName)
  /-- `load W, H, IMG` -/
  | load (w h : Nat) (img : String)
  /-- `dump` -/
  | dump
  /-- `payw a, v` -/
  | payw (a v : Nat)
  /-- `payr a` -/
  | payr (a : Nat)
  /-- `reset` -/
  | reset
  /-- `cmd MNEMONIC` (R81) -/
  | cmd (c : Instr)
  /-- `payw a, "text"` (R81) -/
  | paywText (a : Nat) (text : String)
  /-- `wrcfg bi, R?G?B?` (R81) -/
  | wrcfg (bi : Nat) (r g b : Bool)
  deriving DecidableEq, Repr

end Sys2Proof.Machine
end

