-- ==== Sys2Proof/Machine/State.lean ====
section
/-!
DEFINITION. The state of the block (10_state.md, 20_memory.md): sixteen registers that hold a value besides STATUS (CMD
holds none, R20), the pixel memory, the payload memory; and four fields of the model's own, named as such below.
-/

namespace Sys2Proof.Machine

/-- The four channels of a pixel (R43). -/
inductive Channel where
  | r | g | b | a
  deriving DecidableEq, Repr

/-- "an ordered 4-tuple of unsigned 8-bit channel values (R, G, B, A)" (R9, R43). -/
structure Pixel where
  r : Byte
  g : Byte
  b : Byte
  a : Byte
  deriving DecidableEq, Repr

/-- What STATUS can hold: codes 0 to 6 (R21). Codes 7 to 15 are never written (R106) and have no constructor, so no
state holds one (log entry 4). -/
inductive StatusCode where
  | ok | capacityError | formatError | truncationError | indexError | decodeError | illegalCommand
  deriving DecidableEq, Repr

/-- The 4-tuple (x, y, c, i) that `map` gives (R57). -/
structure Position where
  x : Nat
  y : Nat
  ch : Channel
  bit : Nat
  deriving DecidableEq, Repr

structure State where
  /-- STATUS, index 1 (R21) -/
  status : StatusCode
  /-- CONFIG, index 2 (R22): BIT_INDEX [2:0], CT_R [3], CT_G [4], CT_B [5] -/
  config : BitVec 6
  /-- WIDTH, index 3 (R23) -/
  width : Dim
  /-- HEIGHT, index 4 (R24) -/
  height : Dim
  /-- PAY_LEN, index 5 (R25) -/
  payLen : BitVec 32
  /-- LEN_OUT, index 6 (R26) -/
  lenOut : BitVec 32
  /-- NEED_BITS, index 7 (R27) -/
  needBits : BitVec 64
  /-- AVAIL_BITS, index 8 (R28) -/
  availBits : BitVec 64
  /-- ARG_K, index 9 (R29) -/
  argK : BitVec 64
  /-- BIT_IO, index 10 (R30) -/
  bitIo : BitVec 1
  /-- ARG_X, index 11 (R31) -/
  argX : Dim
  /-- ARG_Y, index 12 (R32) -/
  argY : Dim
  /-- PIX_DATA, index 13 (R33) -/
  pixData : BitVec 32
  /-- MAP_X, index 14 (R34) -/
  mapX : Dim
  /-- MAP_Y, index 15 (R35) -/
  mapY : Dim
  /-- MAP_CH, index 16 (R36) -/
  mapCh : BitVec 2
  /-- MAP_BIT, index 17 (R37) -/
  mapBit : BitVec 3
  /-- The pixel memory (R43, R44): the pixels in row-major order, WIDTH·HEIGHT of them (log entry 2). -/
  grid : List Pixel
  /-- The payload memory (R47, R48): address and byte of every written cell, addresses strictly rising. An address that
  is not listed is unwritten. -/
  payload : List Host.Cell
  /-- The model's own (log entry 1): the implementation parameter `DIM_BITS` (R10). No step changes it. -/
  dimBits : Nat
  /-- The model's own (log entry 3): the operations the host has still to perform, in the order it issues them (R65). -/
  pending : List HostOp
  /-- The model's own (log entry 3): the results returned to the host so far, oldest first (R17). -/
  replies : List Reply
  deriving DecidableEq, Repr

/-- Why the model stops. -/
inductive Fault where
  /-- UNINIT_PAYLOAD (R108): raised by EMBED, after its capacity check, and by PAY_RD when they read the unwritten payload
  cell `a`. Safe: the spec's own model fault; the hardware would read some byte, and nothing is proved about it. -/
  | uninitPayload (a : PayAddr)
  deriving DecidableEq, Repr

/-- What the model gives no meaning. -/
inductive Refusal where
  /-- A command that has no meaning in the model yet, by its mnemonic. Raised by no arm of `exec` any more. Safe. -/
  | notModelled (mnemonic : String)
  /-- R109: raised by LOAD_GRID when W or H does not fit `DIM_BITS` bits or the image is not 4·W·H bytes long. Safe: the
  spec's own refusal. -/
  | loadGridDoesNotFit
  deriving DecidableEq, Repr

/-- RESET (R121), with the implementation parameter and the host's side of the port given: every register at the value
of the table of R18, the 0 × 0 grid, every payload cell unwritten. -/
def State.resetWith (dimBits : Nat) (pending : List HostOp) (replies : List Reply) : State where
  status := .ok
  config := 0x08#6
  width := 0
  height := 0
  payLen := 0
  lenOut := 0
  needBits := 0
  availBits := 0
  argK := 0
  bitIo := 0
  argX := 0
  argY := 0
  pixData := 0
  mapX := 0
  mapY := 0
  mapCh := 0
  mapBit := 0
  grid := []
  payload := []
  dimBits := dimBits
  pending := pending
  replies := replies

/-- The machine after power-on (R122): reset values, and a host that has not issued anything. -/
def State.reset : State := State.resetWith Config.dimBits [] []

namespace State

def setStatus (s : State) (c : StatusCode) : State := { s with status := c }
def setLenOut (s : State) (v : BitVec 32) : State := { s with lenOut := v }
/-- The two counts an error reports (R27, R28). -/
def setReport (s : State) (need avail : BitVec 64) : State := { s with needBits := need, availBits := avail }
def setBitIo (s : State) (v : BitVec 1) : State := { s with bitIo := v }
def setPixData (s : State) (v : BitVec 32) : State := { s with pixData := v }
/-- The four results of MAP (R34 to R37). -/
def setMapOut (s : State) (x y : Dim) (c : BitVec 2) (i : BitVec 3) : State :=
  { s with mapX := x, mapY := y, mapCh := c, mapBit := i }
def setGrid (s : State) (g : List Pixel) : State := { s with grid := g }
def setPayload (s : State) (m : List Host.Cell) : State := { s with payload := m }
def setPending (s : State) (ops : List HostOp) : State := { s with pending := ops }
def addReply (s : State) (r : Reply) : State := { s with replies := s.replies ++ [r] }

end State

end Sys2Proof.Machine
end

