-- ==== Sys2Proof/Machine/Flags.lean ====
section
/-!
DEFINITION. The one condition indicator, STATUS.CODE (10_state.md R21, R40; 60_exceptions.md R99 to R106). There are no
flags besides it.
-/

namespace Sys2Proof.Machine

/-- The 4-bit code of R21 and of the table of R99. -/
def statusCode : StatusCode → BitVec 4
  | .ok => 0#4
  | .capacityError => 1#4
  | .formatError => 2#4
  | .truncationError => 3#4
  | .indexError => 4#4
  | .decodeError => 5#4
  | .illegalCommand => 6#4

end Sys2Proof.Machine
end

