-- ==== Sys2Proof/Machine/Operands.lean ====
section
/-!
DEFINITION. What the commands compute from CONFIG, WIDTH and HEIGHT before they touch a memory: the fields of CONFIG
(10_state.md R22), the Channel Target, the capacity, the needed bits and the traversal map (20_memory.md R56 to R59). All
of it on naturals, as R12 says: nothing wraps.
-/

namespace Sys2Proof.Machine

/-- The tuple index of a channel, R = 0, G = 1, B = 2, A = 3 (R13, R43). -/
def channelIndex : Channel → Nat
  | .r => 0
  | .g => 1
  | .b => 2
  | .a => 3

/-- CONFIG.BIT_INDEX (R22). -/
def bitIndex (s : State) : Nat := (s.config.extractLsb' 0 3).toNat

/-- CONFIG.CT_R (R22). -/
def ctR (s : State) : Bool := s.config.getLsbD 3

/-- CONFIG.CT_G (R22). -/
def ctG (s : State) : Bool := s.config.getLsbD 4

/-- CONFIG.CT_B (R22). -/
def ctB (s : State) : Bool := s.config.getLsbD 5

/-- `ct_list` (R56): the enabled channels in the order R, G, B. A is never among them. -/
def ctList (s : State) : List Channel :=
  (if ctR s then [.r] else []) ++ (if ctG s then [.g] else []) ++ (if ctB s then [.b] else [])

/-- `cap` = WIDTH · HEIGHT · n (R58), exact. -/
def cap (s : State) : Nat := s.width.toNat * s.height.toNat * (ctList s).length

/-- `need(L)` = 32 + 8 · L (R59), exact. -/
def need (len : Nat) : Nat := 32 + 8 * len

/-- `map(k)` (R57). The spec defines it for k < cap, where n ≥ 1 and WIDTH ≥ 1 and the list holds its k mod n; every
command checks that first, so the values this definition takes elsewhere reach no state. -/
def mapPos (s : State) (k : Nat) : Position where
  x := k / (ctList s).length % s.width.toNat
  y := k / (ctList s).length / s.width.toNat
  ch := (ctList s).getD (k % (ctList s).length) .r
  bit := bitIndex s

/-- (x, y) is in range (R46). -/
def inRange (s : State) (x y : Nat) : Bool := decide (x < s.width.toNat) && decide (y < s.height.toNat)

end Sys2Proof.Machine
end

