-- ==== Sys2Proof/Machine/Ops.lean ====
section
/-!
DEFINITION. The named operations over the memories and the bitstreams (20_memory.md R43 to R62), ending a command with
an error or with success (60_exceptions.md R99), and writing the report registers (10_state.md R27, R28).
-/

namespace Sys2Proof.Machine

/-! ## Ending a command -/

/-- `raise E` (R13, R99), the block's only exception: STATUS.CODE takes the code of E and the register writes made before
stand. No program counter is saved, no mode changes, nothing is jumped to (R112), and there is no return from it (R113):
the next command runs as after a success. -/
def raise (e : StatusCode) (s : State) : State := s.setStatus e

/-- `finish OK` (R13). -/
def finish (s : State) : State := s.setStatus .ok

/-- Writes NEED_BITS and AVAIL_BITS (R27, R28). -/
def report (needed avail : Nat) (s : State) : State := s.setReport (BitVec.ofNat 64 needed) (BitVec.ofNat 64 avail)

/-! ## Pixel memory -/

/-- A channel of a pixel. -/
def pixelGet (p : Pixel) : Channel → Byte
  | .r => p.r
  | .g => p.g
  | .b => p.b
  | .a => p.a

/-- A pixel with one channel replaced. -/
def pixelSet (p : Pixel) (c : Channel) (v : Byte) : Pixel :=
  match c with
  | .r => { p with r := v }
  | .g => { p with g := v }
  | .b => { p with b := v }
  | .a => { p with a := v }

/-- The pixel index p = y · WIDTH + x (R44). -/
def pixelIndex (s : State) (x y : Nat) : Nat := y * s.width.toNat + x

/-- `PixRead` (R43), which the spec defines for in-range coordinates only. DESIGN CHOICE (log entry 2) elsewhere, where no
command reads: the channel of the pixel at list place `y · WIDTH + x`, which for x ≥ WIDTH can be a pixel of another row,
and 0 where the list has no such place. -/
def pixRead (s : State) (x y : Nat) (c : Channel) : Byte :=
  match s.grid[pixelIndex s x y]? with
  | some p => pixelGet p c
  | none => 0

/-- `PixWrite` (R43): sets one channel of one pixel and changes nothing else. The spec defines it for in-range coordinates
only. DESIGN CHOICE (log entry 2) elsewhere, where no command writes: it sets the channel of the pixel at list place
`y · WIDTH + x`, which for x ≥ WIDTH can be a pixel of another row, and changes nothing where the list has no such
place. -/
def pixWrite (x y : Nat) (c : Channel) (v : Byte) (s : State) : State :=
  s.setGrid (s.grid.modify (pixelIndex s x y) (fun p => pixelSet p c v))

/-- The pixels of a grid byte image (R44): byte 4·p + c is channel c of pixel p. LOAD_GRID refuses a length that is no
multiple of 4 (R109); this total function drops the bytes left over (log entry 10). -/
def pixelsOfImage : List Byte → List Pixel
  | r :: g :: b :: a :: rest => ⟨r, g, b, a⟩ :: pixelsOfImage rest
  | _ => []

/-- The grid byte image of a list of pixels (R44). -/
def imageOfPixels (g : List Pixel) : List Byte := g.flatMap (fun p => [p.r, p.g, p.b, p.a])

/-- The PIX_DATA packing a << 24 | b << 16 | g << 8 | r (R51). -/
def packPixel (r g b a : Byte) : BitVec 32 :=
  a.setWidth 32 <<< 24 ||| b.setWidth 32 <<< 16 ||| g.setWidth 32 <<< 8 ||| r.setWidth 32

/-- The channel `c` of a packed pixel (R51): R [7:0], G [15:8], B [23:16], A [31:24]. -/
def unpackChannel (d : BitVec 32) : Channel → Byte
  | .r => d.extractLsb' 0 8
  | .g => d.extractLsb' 8 8
  | .b => d.extractLsb' 16 8
  | .a => d.extractLsb' 24 8

/-! ## Payload memory -/

/-- The byte at an address, `none` where the cell is unwritten (R48). -/
def memRead : List Host.Cell → Nat → Option Byte
  | [], _ => none
  | (k, v) :: m, a => if k = a then some v else memRead m a

/-- The memory with the byte at an address set; the cell becomes written (R47, R48). Keeps the addresses rising. -/
def memWrite : List Host.Cell → Nat → Byte → List Host.Cell
  | [], a, v => [(a, v)]
  | (k, w) :: m, a, v =>
    if a < k then (a, v) :: (k, w) :: m
    else if a = k then (a, v) :: m
    else (k, w) :: memWrite m a v

/-- The canonical form of the payload memory: addresses strictly rising and below 2^32 (R47). An unlisted address reads
as unwritten, so no listed entry equals what an unlisted one reads as. -/
abbrev Memory.wf (m : List Host.Cell) : Prop :=
  m.Pairwise (fun c d => c.1 < d.1) ∧ ∀ c ∈ m, c.1 < 2 ^ 32

/-- `PayRead` (R47). -/
def payRead (s : State) (a : Nat) : Option Byte := memRead s.payload a

/-- `PayWrite` (R47). -/
def payWrite (a : Nat) (v : Byte) (s : State) : State := s.setPayload (memWrite s.payload a v)

/-- `[PayRead(a), ..., PayRead(a + n − 1)]`, or the first unwritten address among them (R86, R108). -/
def payReadRange (s : State) : Nat → Nat → Except Nat (List Byte)
  | _, 0 => .ok []
  | a, n + 1 =>
    match payRead s a with
    | none => .error a
    | some v =>
      match payReadRange s (a + 1) n with
      | .error e => .error e
      | .ok vs => .ok (v :: vs)

/-- `PayWrite` of a list of bytes at `a`, `a + 1`, ... in turn (R89). -/
def payWriteRange : Nat → List Byte → State → State
  | _, [], s => s
  | a, v :: vs, s => payWriteRange (a + 1) vs (payWrite a v s)

/-! ## Bitstreams and framing -/

/-- A byte as eight stream bits, most significant first (R54). -/
def byteBits (v : Byte) : List Bool :=
  [v.getLsbD 7, v.getLsbD 6, v.getLsbD 5, v.getLsbD 4, v.getLsbD 3, v.getLsbD 2, v.getLsbD 1, v.getLsbD 0]

/-- `bits_of` (R54). -/
def bitsOf (bytes : List Byte) : List Bool := bytes.flatMap byteBits

/-- `be32(L)` = [L[31:24], L[23:16], L[15:8], L[7:0]] (R55). -/
def be32 (len : BitVec 32) : List Byte :=
  [len.extractLsb' 24 8, len.extractLsb' 16 8, len.extractLsb' 8 8, len.extractLsb' 0 8]

/-- `envelope(L, P)` = bits_of(be32(L) ++ P) (R55). -/
def envelope (len : BitVec 32) (bytes : List Byte) : List Bool := bitsOf (be32 len ++ bytes)

/-- The number a list of bits spells, most significant first (R62). -/
def bitsValue (bits : List Bool) : Nat := bits.foldl (fun acc b => 2 * acc + b.toNat) 0

/-- `wbit(v, i, b)` = (v & ~(1 << i)) | (b << i) (R60). -/
def wbit (v : Byte) (i : Nat) (b : Bool) : Byte :=
  (v &&& ~~~(1#8 <<< i)) ||| ((BitVec.ofBool b).setWidth 8 <<< i)

/-- `rbit(v, i)` = (v >> i) & 1 (R61). -/
def rbit (v : Byte) (i : Nat) : Bool := (v >>> i &&& 1#8) == 1#8

/-! ## Carrier bits -/

/-- `cbit(k)` (R62). -/
def cbit (s : State) (k : Nat) : Bool :=
  rbit (pixRead s (mapPos s k).x (mapPos s k).y (mapPos s k).ch) (mapPos s k).bit

/-- The `n` carrier bits from position `k` on. -/
def carrierBits (s : State) : Nat → Nat → List Bool
  | _, 0 => []
  | k, n + 1 => cbit s k :: carrierBits s (k + 1) n

/-- Writes one carrier bit (R86 step 5, R92): read, clear bit i, place the bit at bit i, write back. -/
def writeCarrierBit (k : Nat) (b : Bool) (s : State) : State :=
  pixWrite (mapPos s k).x (mapPos s k).y (mapPos s k).ch
    (wbit (pixRead s (mapPos s k).x (mapPos s k).y (mapPos s k).ch) (mapPos s k).bit b) s

/-- Writes a bitstream into the carrier from position `k` on, in ascending order (R86 step 5). -/
def writeCarrier : Nat → List Bool → State → State
  | _, [], s => s
  | k, b :: bs, s => writeCarrier (k + 1) bs (writeCarrierBit k b s)

/-- The declared length, the first 32 carrier bits (R62); for cap ≥ 32. -/
def declaredLength (s : State) : BitVec 32 := BitVec.ofNat 32 (bitsValue (carrierBits s 0 32))

/-- Message byte `i` (R62). -/
def messageByte (s : State) (i : Nat) : Byte := BitVec.ofNat 8 (bitsValue (carrierBits s (32 + 8 * i) 8))

/-- The message bytes `i`, `i + 1`, ..., `i + n − 1` (R89). -/
def messageBytes (s : State) : Nat → Nat → List Byte
  | _, 0 => []
  | i, n + 1 => messageByte s i :: messageBytes s (i + 1) n

end Sys2Proof.Machine
end

