-- ==== Sys2Proof/Machine/BitMapping.lean ====
section
/-! DEFINITION. The bit mapping commands (43_bit_mapping.md): MAP (R91), WRBIT (R92) and RDBIT (R93). -/

namespace Sys2Proof.Machine

/-- The one check of the three commands (R110): ARG_K < cap, else INDEX_ERROR; then `rest` and `finish OK`. -/
def positionChecked (s : State) (rest : State → State) : Host.Outcome State Fault Refusal :=
  if s.argK.toNat < cap s then .next (finish (rest s)) else .next (raise .indexError s)

/-- MAP (R91). -/
def execMap (s : State) : Host.Outcome State Fault Refusal :=
  positionChecked s (fun s1 =>
    let m := mapPos s1 s1.argK.toNat
    s1.setMapOut (BitVec.ofNat 30 m.x) (BitVec.ofNat 30 m.y) (BitVec.ofNat 2 (channelIndex m.ch)) (BitVec.ofNat 3 m.bit))

/-- WRBIT (R92). -/
def execWrbit (s : State) : Host.Outcome State Fault Refusal :=
  positionChecked s (fun s1 => writeCarrierBit s1.argK.toNat (s1.bitIo.getLsbD 0) s1)

/-- RDBIT (R93). -/
def execRdbit (s : State) : Host.Outcome State Fault Refusal :=
  positionChecked s (fun s1 => s1.setBitIo (BitVec.ofBool (cbit s1 s1.argK.toNat)))

end Sys2Proof.Machine
end

