-- ==== Sys2Proof/Machine/Control.lean ====
section
/-! DEFINITION. The control commands (44_control.md): NOP (R94) and the illegal codes (R95). -/

namespace Sys2Proof.Machine

/-- NOP (R94): no action; STATUS is not written. -/
def execNop (s : State) : Host.Outcome State Fault Refusal := .next s

/-- Codes 10 and 11 (R95, R77): raise ILLEGAL_COMMAND; the code itself is recorded nowhere. -/
def execIllegal101x (_x : BitVec 1) (s : State) : Host.Outcome State Fault Refusal := .next (raise .illegalCommand s)

/-- Codes 12 to 15 (R95, R77): raise ILLEGAL_COMMAND; the code itself is recorded nowhere. -/
def execIllegal11xx (_x : BitVec 2) (s : State) : Host.Outcome State Fault Refusal := .next (raise .illegalCommand s)

end Sys2Proof.Machine
end

