-- ==== Sys2Proof/Machine/Embed.lean ====
section
/-! DEFINITION. The embed commands (41_embed.md): CHECK (R85) and EMBED (R86). -/

namespace Sys2Proof.Machine

/-- Steps 1 to 3 of the embed, shared by CHECK and EMBED (R85, R86): report the counts, then the capacity check, then
the rest of the command. -/
def capacityChecked (s : State) (rest : State → Host.Outcome State Fault Refusal) :
    Host.Outcome State Fault Refusal :=
  let s1 := report (need s.payLen.toNat) (cap s) s
  if cap s < need s.payLen.toNat then .next (raise .capacityError s1) else rest s1

/-- CHECK (R85). -/
def execCheck (s : State) : Host.Outcome State Fault Refusal :=
  capacityChecked s (fun s1 => .next (finish s1))

/-- EMBED (R86). The payload is read only after the capacity check (R110), and all of it before the first pixel is
written (R99). -/
def execEmbed (s : State) : Host.Outcome State Fault Refusal :=
  capacityChecked s (fun s1 =>
    match payReadRange s1 0 s1.payLen.toNat with
    | .error a => .fault (.uninitPayload (BitVec.ofNat 32 a))
    | .ok bytes => .next (finish (writeCarrier 0 (envelope s1.payLen bytes) s1)))

end Sys2Proof.Machine
end

