-- ==== Sys2Proof/Machine/Extract.lean ====
section
/-! DEFINITION. The extract commands (42_extract.md): DECLEN (R88) and EXTRACT (R89). -/

namespace Sys2Proof.Machine

/-- Steps 1 to 4 of the extract, shared by DECLEN and EXTRACT (R88, R89): FORMAT_ERROR before the header is read,
TRUNCATION_ERROR after LEN_OUT and the counts are written, then the rest of the command. -/
def lengthChecked (s : State) (rest : State → Host.Outcome State Fault Refusal) :
    Host.Outcome State Fault Refusal :=
  if cap s < 32 then .next (raise .formatError (report 32 (cap s) s))
  else
    let len := declaredLength s
    let s1 := report (need len.toNat) (cap s) (s.setLenOut len)
    if cap s < need len.toNat then .next (raise .truncationError s1) else rest s1

/-- DECLEN (R88). -/
def execDeclen (s : State) : Host.Outcome State Fault Refusal :=
  lengthChecked s (fun s1 => .next (finish s1))

/-- EXTRACT (R89). The grid and CONFIG do not change on the way, so the message is that of the state it began in. -/
def execExtract (s : State) : Host.Outcome State Fault Refusal :=
  lengthChecked s (fun s1 => .next (finish (payWriteRange 0 (messageBytes s1 0 s1.lenOut.toNat) s1)))

end Sys2Proof.Machine
end

