-- ==== Sys2Proof/Machine/PixelAccess.lean ====
section
/-! DEFINITION. The pixel access commands (40_pixel_access.md): GETPIX (R83) and SETPIX (R84). -/

namespace Sys2Proof.Machine

/-- GETPIX (R83). -/
def execGetpix (s : State) : Host.Outcome State Fault Refusal :=
  let x := s.argX.toNat
  let y := s.argY.toNat
  if inRange s x y then
    .next (finish (s.setPixData
      (packPixel (pixRead s x y .r) (pixRead s x y .g) (pixRead s x y .b) (pixRead s x y .a))))
  else .next (raise .indexError s)

/-- SETPIX (R84). It writes Alpha too. -/
def execSetpix (s : State) : Host.Outcome State Fault Refusal :=
  let x := s.argX.toNat
  let y := s.argY.toNat
  if inRange s x y then
    let s1 := pixWrite x y .r (unpackChannel s.pixData .r) s
    let s2 := pixWrite x y .g (unpackChannel s.pixData .g) s1
    let s3 := pixWrite x y .b (unpackChannel s.pixData .b) s2
    let s4 := pixWrite x y .a (unpackChannel s.pixData .a) s3
    .next (finish s4)
  else .next (raise .indexError s)

end Sys2Proof.Machine
end

