-- ==== Sys2Proof/Machine/Dispatch.lean ====
section
/-! DEFINITION. One command of the block: one arm for each constructor of `Instr`. -/

namespace Sys2Proof.Machine

def exec (i : Instr) (s : State) : Host.Outcome State Fault Refusal :=
  match i with
  | .nop => Sys2Proof.Machine.execNop s
  | .embed => Sys2Proof.Machine.execEmbed s
  | .extract => Sys2Proof.Machine.execExtract s
  | .check => Sys2Proof.Machine.execCheck s
  | .declen => Sys2Proof.Machine.execDeclen s
  | .map => Sys2Proof.Machine.execMap s
  | .wrbit => Sys2Proof.Machine.execWrbit s
  | .rdbit => Sys2Proof.Machine.execRdbit s
  | .getpix => Sys2Proof.Machine.execGetpix s
  | .setpix => Sys2Proof.Machine.execSetpix s
  | .illegal101x x => Sys2Proof.Machine.execIllegal101x x s
  | .illegal11xx x => Sys2Proof.Machine.execIllegal11xx x s

end Sys2Proof.Machine
end

