-- ==== Sys2Proof/Machine/HostPort.lean ====
section
/-!
DEFINITION. The host operations of 10_state.md R17 other than the CMD write that starts a command, and the port
semantics of the register file (R18, R19).
-/

namespace Sys2Proof.Machine

/-- The register an index names, `none` for the unassigned indices 18 to 31 (R18). -/
def regAt (i : RegIndex) : Option RegName :=
  match i.toNat with
  | 0 => some .cmd
  | 1 => some .status
  | 2 => some .config
  | 3 => some .width
  | 4 => some .height
  | 5 => some .payLen
  | 6 => some .lenOut
  | 7 => some .needBits
  | 8 => some .availBits
  | 9 => some .argK
  | 10 => some .bitIo
  | 11 => some .argX
  | 12 => some .argY
  | 13 => some .pixData
  | 14 => some .mapX
  | 15 => some .mapY
  | 16 => some .mapCh
  | 17 => some .mapBit
  | _ => none

/-- The value of a register, zero-extended to the port (R19). CMD reads 0 at all times (R20). -/
def regValue (s : State) : RegName → PortWord
  | .cmd => 0
  | .status => (statusCode s.status).setWidth 64
  | .config => s.config.setWidth 64
  | .width => s.width.setWidth 64
  | .height => s.height.setWidth 64
  | .payLen => s.payLen.setWidth 64
  | .lenOut => s.lenOut.setWidth 64
  | .needBits => s.needBits
  | .availBits => s.availBits
  | .argK => s.argK
  | .bitIo => s.bitIo.setWidth 64
  | .argX => s.argX.setWidth 64
  | .argY => s.argY.setWidth 64
  | .pixData => s.pixData.setWidth 64
  | .mapX => s.mapX.setWidth 64
  | .mapY => s.mapY.setWidth 64
  | .mapCh => s.mapCh.setWidth 64
  | .mapBit => s.mapBit.setWidth 64

/-- What REG_RD returns (R18, R19): 0 for an unassigned index. -/
def portRead (s : State) (i : RegIndex) : PortWord :=
  match regAt i with
  | some r => regValue s r
  | none => 0

/-- The low `dimBits` bits of port data, in a `DIM_BITS`-wide register (R19); for a `dimBits` above 30, which R10 excludes, the
low thirty (log entry 1). -/
def dimOf (dimBits : Nat) (d : PortWord) : Dim := BitVec.ofNat 30 (d.toNat % 2 ^ dimBits)

/-- A port write to a named register (R19): a read-write register keeps the low bits of the data, a read-only register
keeps its value. A CMD write is no write to a register (R20). -/
def regWrite (s : State) (d : PortWord) : RegName → State
  | .config => { s with config := d.setWidth 6 }
  | .payLen => { s with payLen := d.setWidth 32 }
  | .argK => { s with argK := d }
  | .bitIo => { s with bitIo := d.setWidth 1 }
  | .argX => { s with argX := dimOf s.dimBits d }
  | .argY => { s with argY := dimOf s.dimBits d }
  | .pixData => { s with pixData := d.setWidth 32 }
  | .cmd => s
  | .status => s
  | .width => s
  | .height => s
  | .lenOut => s
  | .needBits => s
  | .availBits => s
  | .mapX => s
  | .mapY => s
  | .mapCh => s
  | .mapBit => s

/-- The state after REG_WR to an index other than 0 (R18, R19): an unassigned index changes nothing. -/
def portWrite (s : State) (i : RegIndex) (d : PortWord) : State :=
  match regAt i with
  | some r => regWrite s d r
  | none => s

/-- REG_WR(i, d), i ≠ 0. -/
def hostRegWr (i : RegIndex) (d : PortWord) (s : State) : Host.Outcome State Fault Refusal := .next (portWrite s i d)

/-- REG_RD(i). -/
def hostRegRd (i : RegIndex) (s : State) : Host.Outcome State Fault Refusal := .next (s.addReply (.word (portRead s i)))

/-- LOAD_GRID's condition (R109): the dimensions fit `DIM_BITS` bits and the image has exactly 4·W·H bytes. -/
def loadGridFits (s : State) (w h : Nat) (img : List Byte) : Bool :=
  decide (w < 2 ^ s.dimBits) && decide (h < 2 ^ s.dimBits) && decide (img.length = 4 * w * h)

/-- LOAD_GRID(W, H, img) (R17): sets WIDTH, HEIGHT and the pixel memory and no other state (R131). -/
def hostLoadGrid (w h : Nat) (img : List Byte) (s : State) : Host.Outcome State Fault Refusal :=
  if loadGridFits s w h img then
    .next { s with width := BitVec.ofNat 30 w, height := BitVec.ofNat 30 h, grid := pixelsOfImage img }
  else .refused .loadGridDoesNotFit

/-- DUMP_GRID() (R17, R44). -/
def hostDumpGrid (s : State) : Host.Outcome State Fault Refusal := .next (s.addReply (.image (imageOfPixels s.grid)))

/-- PAY_WR(a, v) (R17). -/
def hostPayWr (a : PayAddr) (v : Byte) (s : State) : Host.Outcome State Fault Refusal := .next (payWrite a.toNat v s)

/-- PAY_RD(a) (R17): the byte, or the model fault UNINIT_PAYLOAD (R108). -/
def hostPayRd (a : PayAddr) (s : State) : Host.Outcome State Fault Refusal :=
  match payRead s a.toNat with
  | some v => .next (s.addReply (.byte v))
  | none => .fault (.uninitPayload a)

/-- RESET() (R121, R122): no state of the block survives; the implementation parameter and the host's own side of the
port are no state of the block. -/
def hostReset (s : State) : Host.Outcome State Fault Refusal := .next (State.resetWith s.dimBits s.pending s.replies)

end Sys2Proof.Machine
end

