-- ==== Sys2Proof/Machine/Step.lean ====
section
/-!
DEFINITION. One step of the machine: the next host operation, whole (10_state.md R16, R17). A write to CMD and the
command it starts are one step.
-/

namespace Sys2Proof.Machine

/-- One host operation (R17). -/
def perform (op : HostOp) (s : State) : Host.Outcome State Fault Refusal :=
  match op with
  | .regWr i d =>
    match commandOf i d with
    | some c => exec c s
    | none => hostRegWr i d s
  | .regRd i => hostRegRd i s
  | .loadGrid w h img => hostLoadGrid w h img s
  | .dumpGrid => hostDumpGrid s
  | .payWr a v => hostPayWr a v s
  | .payRd a => hostPayRd a s
  | .reset => hostReset s

/-- The host's next operation in the order it issues them (R65). With none issued the block waits and nothing changes
(R123). -/
def step (s : State) : Host.Outcome State Fault Refusal :=
  match s.pending with
  | [] => .next s
  | op :: ops => perform op (s.setPending ops)

/-- `s` with the host about to write the table word to CMD, before whatever it was about to do (log
entries 3 and 9). -/
def State.withFetchWord (s : State) (nbits w : Nat) : State :=
  s.setPending (.regWr 0#5 (tableData nbits w) :: s.pending)

/-- `s` with a host program to run (R80, R135). -/
def State.withProgram (s : State) (ops : List HostOp) : State := s.setPending ops

end Sys2Proof.Machine
end

