-- ==== Sys2Proof/WellFormed.lean ====
section
/-!
DEFINITION. Which terms stand for something the host can really issue. A command is well formed whatever its free bits
are: their widths are in its type. The arguments of LOAD_GRID and the numbers of a program line are naturals, and these
have checks.
-/

namespace Sys2Proof

/-- Every command term is one of the sixteen command codes (R76: "every 4-bit value selects exactly one row"). -/
def Instr.wellFormed : Instr → Bool
  | .nop => true
  | .embed => true
  | .extract => true
  | .check => true
  | .declen => true
  | .map => true
  | .wrbit => true
  | .rdbit => true
  | .getpix => true
  | .setpix => true
  | .illegal101x _ => true
  | .illegal11xx _ => true

namespace Machine

/-- R17, R109: a grid of `w` by `h` pixels has exactly 4·W·H bytes and fits registers of `dimBits` bits. -/
def HostOp.wellFormed (dimBits : Nat) : HostOp → Bool
  | .regWr _ _ => true
  | .regRd _ => true
  | .loadGrid w h img => decide (w < 2 ^ dimBits) && decide (h < 2 ^ dimBits) && decide (img.length = 4 * w * h)
  | .dumpGrid => true
  | .payWr _ _ => true
  | .payRd _ => true
  | .reset => true

/-- R80, R81: the numbers of a line fit the fields of its record (R73), a `cmd` names one of the ten commands, a text is
ASCII and lies inside the payload memory, and a bit index is one of 0 to 7 (R3). -/
def Line.wellFormed : Line → Bool
  | .wr _ v => decide (v < 2 ^ 64)
  | .rd _ => true
  | .load w h _ => decide (w < 2 ^ 32) && decide (h < 2 ^ 32)
  | .dump => true
  | .payw a v => decide (a < 2 ^ 32) && decide (v < 2 ^ 8)
  | .payr a => decide (a < 2 ^ 32)
  | .reset => true
  | .cmd c =>
    match c with
    | .illegal101x _ => false
    | .illegal11xx _ => false
    | .nop => true
    | .embed => true
    | .extract => true
    | .check => true
    | .declen => true
    | .map => true
    | .wrbit => true
    | .rdbit => true
    | .getpix => true
    | .setpix => true
  | .paywText a text =>
    decide (a + text.toList.length ≤ 2 ^ 32) && text.toList.all (fun ch => decide (ch.toNat < 128))
  | .wrcfg bi _ _ _ => decide (bi < 8)

end Machine

end Sys2Proof
end

