-- ==== Sys2Proof/Machine/Notation.lean ====
section
/-!
DEFINITION. How host operations and host programs are written (30_encoding.md R73, R80 to R82): the record of an
operation and its reader, the expansion of a program line into host operations, and the reader of a program's text.
Texts are lists of characters.
-/

namespace Sys2Proof.Machine

/-! ## Hexadecimal fields -/

/-- A hexadecimal digit, capital letters (R73 writes `1F`; log entry 6). -/
def hexDigit (n : Nat) : Char := if n < 10 then Char.ofNat (48 + n) else Char.ofNat (55 + n)

/-- The value of a hexadecimal digit, of either case (log entry 6). -/
def hexDigitValue (c : Char) : Option Nat :=
  let n := c.toNat
  if 48 ≤ n ∧ n ≤ 57 then some (n - 48)
  else if 65 ≤ n ∧ n ≤ 70 then some (n - 55)
  else if 97 ≤ n ∧ n ≤ 102 then some (n - 87)
  else none

/-- A number as exactly `digits` hexadecimal digits, most significant first. -/
def hexField : Nat → Nat → List Char
  | 0, _ => []
  | digits + 1, v => hexField digits (v / 16) ++ [hexDigit (v % 16)]

/-- Reads exactly `digits` hexadecimal digits after the value `acc` of those before: the number and the rest. -/
def takeHexFrom : Nat → Nat → List Char → Option (Nat × List Char)
  | 0, acc, cs => some (acc, cs)
  | _ + 1, _, [] => none
  | digits + 1, acc, c :: cs =>
    match hexDigitValue c with
    | some d => takeHexFrom digits (16 * acc + d) cs
    | none => none

/-- Reads a field of exactly `digits` hexadecimal digits. -/
def takeHex (digits : Nat) (cs : List Char) : Option (Nat × List Char) := takeHexFrom digits 0 cs

/-- Reads bytes of two digits each to the end of the text, `fuel` of them at most. -/
def takeBytes : Nat → List Char → Option (List Byte)
  | _, [] => some []
  | 0, _ :: _ => none
  | fuel + 1, c :: cs =>
    match takeHex 2 (c :: cs) with
    | some (v, rest) =>
      match takeBytes fuel rest with
      | some vs => some (BitVec.ofNat 8 v :: vs)
      | none => none
    | none => none

/-! ## Records (R73) -/

/-- The record of a host operation; `none` where a dimension does not fit the eight digits of its field. DESIGN CHOICE (log
entry 6): the space after `hhhhhhhh` is written also before an empty image (W or H = 0), where R73 does not say whether a
separator stands. -/
def recordOf : HostOp → Option (List Char)
  | .regWr i d => some ('W' :: ' ' :: hexField 2 i.toNat ++ ' ' :: hexField 16 d.toNat)
  | .regRd i => some ('R' :: ' ' :: hexField 2 i.toNat)
  | .loadGrid w h img =>
    if w < 2 ^ 32 ∧ h < 2 ^ 32 then
      some ('L' :: ' ' :: hexField 8 w ++ ' ' :: (hexField 8 h ++ ' ' :: img.flatMap (fun v => hexField 2 v.toNat)))
    else none
  | .dumpGrid => some ['D']
  | .payWr a v => some ('P' :: ' ' :: hexField 8 a.toNat ++ ' ' :: hexField 2 v.toNat)
  | .payRd a => some ('Q' :: ' ' :: hexField 8 a.toNat)
  | .reset => some ['X']

/-- Reads `W ii dddddddddddddddd` after its `W `. -/
def readRegWr (cs : List Char) : Option HostOp :=
  match takeHex 2 cs with
  | some (i, ' ' :: rest) =>
    match takeHex 16 rest with
    | some (d, []) => if i < 32 then some (.regWr (BitVec.ofNat 5 i) (BitVec.ofNat 64 d)) else none
    | _ => none
  | _ => none

/-- Reads `R ii` after its `R `. -/
def readRegRd (cs : List Char) : Option HostOp :=
  match takeHex 2 cs with
  | some (i, []) => if i < 32 then some (.regRd (BitVec.ofNat 5 i)) else none
  | _ => none

/-- Reads `L wwwwwwww hhhhhhhh <image>` after its `L `. Whether the image has 4·W·H bytes is LOAD_GRID's check (R109). DESIGN
CHOICE (log entry 6): the space after `hhhhhhhh` must stand, before an empty image too. -/
def readLoadGrid (cs : List Char) : Option HostOp :=
  match takeHex 8 cs with
  | some (w, ' ' :: rest) =>
    match takeHex 8 rest with
    | some (h, ' ' :: rest') =>
      match takeBytes rest'.length rest' with
      | some img => some (.loadGrid w h img)
      | none => none
    | _ => none
  | _ => none

/-- Reads `P aaaaaaaa vv` after its `P `. -/
def readPayWr (cs : List Char) : Option HostOp :=
  match takeHex 8 cs with
  | some (a, ' ' :: rest) =>
    match takeHex 2 rest with
    | some (v, []) => some (.payWr (BitVec.ofNat 32 a) (BitVec.ofNat 8 v))
    | _ => none
  | _ => none

/-- Reads `Q aaaaaaaa` after its `Q `. -/
def readPayRd (cs : List Char) : Option HostOp :=
  match takeHex 8 cs with
  | some (a, []) => some (.payRd (BitVec.ofNat 32 a))
  | _ => none

/-- The host operation a record stands for (R73). -/
def readRecord : List Char → Option HostOp
  | 'W' :: ' ' :: cs => readRegWr cs
  | 'R' :: ' ' :: cs => readRegRd cs
  | 'L' :: ' ' :: cs => readLoadGrid cs
  | 'P' :: ' ' :: cs => readPayWr cs
  | 'Q' :: ' ' :: cs => readPayRd cs
  | ['D'] => some .dumpGrid
  | ['X'] => some .reset
  | _ => none

/-! ## Program lines (R80, R81) -/

/-- The index of a register name (R18). -/
def regIndex : RegName → RegIndex
  | .cmd => 0
  | .status => 1
  | .config => 2
  | .width => 3
  | .height => 4
  | .payLen => 5
  | .lenOut => 6
  | .needBits => 7
  | .availBits => 8
  | .argK => 9
  | .bitIo => 10
  | .argX => 11
  | .argY => 12
  | .pixData => 13
  | .mapX => 14
  | .mapY => 15
  | .mapCh => 16
  | .mapBit => 17

/-- The value `wrcfg` writes: bi + 8·CT_R + 16·CT_G + 32·CT_B (R81). -/
def configValue (bi : Nat) (r g b : Bool) : Nat := bi + 8 * r.toNat + 16 * g.toNat + 32 * b.toNat

/-- `payw a+j, byte j` for each byte j of a text, in order (R81). -/
def textWrites : Nat → List Char → List HostOp
  | _, [] => []
  | a, c :: cs => .payWr (BitVec.ofNat 32 a) (BitVec.ofNat 8 c.toNat) :: textWrites (a + 1) cs

/-- The byte image a program is given under a name (R80); of two under one name, the first (log entry 5). -/
def imageNamed : List (String × List Byte) → String → Option (List Byte)
  | [], _ => none
  | (n, img) :: rest, name => if n = name then some img else imageNamed rest name

/-- The host operations of a line whose numbers fit their fields; `none` where an image is not among those given. -/
def expandWellFormed (images : List (String × List Byte)) : Line → Option (List HostOp)
  | .wr r v => some [.regWr (regIndex r) (BitVec.ofNat 64 v)]
  | .rd r => some [.regRd (regIndex r)]
  | .load w h name =>
    match imageNamed images name with
    | some img => some [.loadGrid w h img]
    | none => none
  | .dump => some [.dumpGrid]
  | .payw a v => some [.payWr (BitVec.ofNat 32 a) (BitVec.ofNat 8 v)]
  | .payr a => some [.payRd (BitVec.ofNat 32 a)]
  | .reset => some [.reset]
  | .cmd c => some [.regWr (regIndex .cmd) (commandData c)]
  | .paywText a text => some (textWrites a text.toList)
  | .wrcfg bi r g b => some [.regWr (regIndex .config) (BitVec.ofNat 64 (configValue bi r g b))]

/-- The host operations of a line (R80, R81); `none` for a line that is not well formed. -/
def expandLine (images : List (String × List Byte)) (l : Line) : Option (List HostOp) :=
  if l.wellFormed then expandWellFormed images l else none

/-- The host operations of a program (R80, R81), in order. -/
def expandProgram (images : List (String × List Byte)) : List Line → Option (List HostOp)
  | [] => some []
  | l :: ls =>
    match expandLine images l, expandProgram images ls with
    | some ops, some rest => some (ops ++ rest)
    | _, _ => none

/-- The records of a list of operations (R82). -/
def recordsOf : List HostOp → Option (List (List Char))
  | [] => some []
  | op :: ops =>
    match recordOf op, recordsOf ops with
    | some r, some rs => some (r :: rs)
    | _, _ => none

/-- "A program's encoding is the list of the records of its lines after pseudo-operations are expanded" (R82). -/
def encodeProgram (images : List (String × List Byte)) (p : List Line) : Option (List (List Char)) :=
  match expandProgram images p with
  | some ops => recordsOf ops
  | none => none

/-! ## Program text (R80) -/

/-- The register names as R18 spells them. -/
def regNames : List (String × RegName) :=
  [("CMD", .cmd), ("STATUS", .status), ("CONFIG", .config), ("WIDTH", .width), ("HEIGHT", .height),
   ("PAY_LEN", .payLen), ("LEN_OUT", .lenOut), ("NEED_BITS", .needBits), ("AVAIL_BITS", .availBits)] ++
  [("ARG_K", .argK), ("BIT_IO", .bitIo), ("ARG_X", .argX), ("ARG_Y", .argY), ("PIX_DATA", .pixData),
   ("MAP_X", .mapX), ("MAP_Y", .mapY), ("MAP_CH", .mapCh), ("MAP_BIT", .mapBit)]

/-- The ten commands a `cmd` line can name (R76). -/
def namedCommands : List Instr :=
  [.nop, .embed, .extract, .check, .declen, .map, .wrbit, .rdbit, .getpix, .setpix]

/-- The register of a name. -/
def regOfText (cs : List Char) : Option RegName :=
  (regNames.find? (fun p => p.1.toList == cs)).map Prod.snd

/-- The command of a mnemonic. -/
def commandOfText (cs : List Char) : Option Instr := namedCommands.find? (fun c => (mnemonic c).toList == cs)

/-- A space or a tab. -/
def isBlank (c : Char) : Bool := c == ' ' || c.toNat == 9

/-- A text without the blanks at its ends. -/
def trim (cs : List Char) : List Char := ((cs.dropWhile isBlank).reverse.dropWhile isBlank).reverse

/-- Cuts a text at every `sep` that stands outside double quotes (code 34), each of which opens or closes a quoted part (log
entry 5). -/
def splitUnquoted (sep : Char) : Bool → List Char → List Char → List (List Char)
  | _, piece, [] => [piece.reverse]
  | quoted, piece, c :: cs =>
    if c == sep && !quoted then piece.reverse :: splitUnquoted sep quoted [] cs
    else splitUnquoted sep (if c.toNat == 34 then !quoted else quoted) (c :: piece) cs

/-- A decimal number's digits read after the value `acc`. -/
def decimalFrom : Nat → List Char → Option Nat
  | acc, [] => some acc
  | acc, c :: cs => if 48 ≤ c.toNat ∧ c.toNat ≤ 57 then decimalFrom (10 * acc + (c.toNat - 48)) cs else none

/-- "Numbers are decimal, or hexadecimal with a 0x prefix" (R80). -/
def numberOfText : List Char → Option Nat
  | [] => none
  | ['0', 'x'] => none
  | '0' :: 'x' :: cs =>
    match takeHex cs.length cs with
    | some (v, _) => some v
    | none => none
  | cs => decimalFrom 0 cs

/-- A text in double quotes, without them. DESIGN CHOICE (log entry 5): it is all that stands between the first and the last
character of the operand, so that a double quote between them is a character of the text (`"a"b"` is the text a"b). -/
def quotedText (cs : List Char) : Option (List Char) :=
  match cs with
  | c :: rest =>
    match rest.reverse with
    | d :: inner => if c.toNat == 34 && d.toNat == 34 then some inner.reverse else none
    | [] => none
  | [] => none

/-- Takes an optional letter off the front of a text. -/
def optionalLetter (c : Char) (cs : List Char) : Bool × List Char :=
  match cs with
  | d :: rest => if c == d then (true, rest) else (false, cs)
  | [] => (false, [])

/-- `R?G?B?` (R81). -/
def channelsOfText (cs : List Char) : Option (Bool × Bool × Bool) :=
  let (r, cs1) := optionalLetter 'R' cs
  let (g, cs2) := optionalLetter 'G' cs1
  let (b, cs3) := optionalLetter 'B' cs2
  if cs3.isEmpty then some (r, g, b) else none

/-- One line from its first word and its operands. -/
def lineOfWords (word : List Char) (operands : List (List Char)) : Option Line :=
  if word == "wr".toList then
    match operands with
    | [n, v] => match regOfText n, numberOfText v with | some r, some k => some (.wr r k) | _, _ => none
    | _ => none
  else if word == "rd".toList then
    match operands with
    | [n] => (regOfText n).map Line.rd
    | _ => none
  else if word == "load".toList then
    match operands with
    | [w, h, img] =>
      match numberOfText w, numberOfText h with
      | some w', some h' => some (.load w' h' (String.ofList img))
      | _, _ => none
    | _ => none
  else if word == "dump".toList then (if operands.isEmpty then some .dump else none)
  else if word == "payw".toList then
    match operands with
    | [a, v] =>
      match numberOfText a, quotedText v, numberOfText v with
      | some a', some t, _ => some (.paywText a' (String.ofList t))
      | some a', none, some v' => some (.payw a' v')
      | _, _, _ => none
    | _ => none
  else if word == "payr".toList then
    match operands with
    | [a] => (numberOfText a).map Line.payr
    | _ => none
  else if word == "reset".toList then (if operands.isEmpty then some .reset else none)
  else if word == "cmd".toList then
    match operands with
    | [m] => (commandOfText m).map Line.cmd
    | _ => none
  else if word == "wrcfg".toList then
    match operands with
    | [bi, cs] =>
      match numberOfText bi, channelsOfText cs with
      | some k, some (r, g, b) => some (.wrcfg k r g b)
      | _, _ => none
    | _ => none
  else none

/-- Reads one line of a program's text: `none` where it is no line of R80 or R81, `some none` where it holds no operation
(it is blank or only a comment: "Text after ; is a comment", R80). -/
def readLine (cs : List Char) : Option (Option Line) :=
  let code := trim ((splitUnquoted ';' false [] cs).headD [])
  if code.isEmpty then some none
  else
    let word := code.takeWhile (fun c => !isBlank c)
    let rest := trim (code.dropWhile (fun c => !isBlank c))
    let operands := if rest.isEmpty then [] else (splitUnquoted ',' false [] rest).map trim
    (lineOfWords word operands).map some

/-- Reads a program's text, one line each (R80). -/
def readProgram : List (List Char) → Option (List Line)
  | [] => some []
  | l :: ls =>
    match readLine l, readProgram ls with
    | some (some x), some xs => some (x :: xs)
    | some none, some xs => some xs
    | _, _ => none

end Sys2Proof.Machine
end

