-- ==== Sys2Proof/Safety.lean ====
section
/-!
DEFINITION. What counts as a legal state and as a safe run, in the terms the statements use.
-/

namespace Sys2Proof.Machine

/-- A value of a `DIM_BITS`-wide register (R10). -/
abbrev State.FitsDim (s : State) (v : Dim) : Prop := v.toNat < 2 ^ s.dimBits

/-- The pixel memory holds exactly the pixels of a WIDTH × HEIGHT grid (R43). -/
abbrev State.GridFull (s : State) : Prop := s.grid.length = s.width.toNat * s.height.toNat

/-- What every state of the block meets, and every step keeps. -/
structure State.Wf (s : State) : Prop where
  /-- 1 ≤ DIM_BITS ≤ 30 (R10) -/
  dimBits_pos : 1 ≤ s.dimBits
  dimBits_le : s.dimBits ≤ 30
  /-- the six registers of width DIM_BITS (R18) -/
  width_fits : s.FitsDim s.width
  height_fits : s.FitsDim s.height
  argX_fits : s.FitsDim s.argX
  argY_fits : s.FitsDim s.argY
  mapX_fits : s.FitsDim s.mapX
  mapY_fits : s.FitsDim s.mapY
  /-- "The value 3 (A) is never written" (R36) -/
  mapCh_target : s.mapCh.toNat < 3
  /-- "DECODE_ERROR, code 5, is never written by the block" (R104) -/
  status_written : s.status ≠ .decodeError
  /-- the largest counts the report registers show (R10, R59) -/
  needBits_le : s.needBits.toNat ≤ 34359738392
  availBits_lt : s.availBits.toNat < 2 ^ 62
  /-- the pixel memory is the grid of WIDTH and HEIGHT (R43, R45) -/
  grid_full : s.GridFull
  /-- the payload memory is in canonical form (R47) -/
  payload_wf : Memory.wf s.payload

/-- Every cell EMBED would read is written (R108, R125). -/
def State.PayloadReady (s : State) : Prop := ∀ a < s.payLen.toNat, payRead s a ≠ none

/-- Two states of the same block contents: they differ in the host's side of the port at most (R71: "change no state"). -/
def State.SameBlock (s t : State) : Prop := t = { s with pending := t.pending, replies := t.replies }

/-- Runs a host program from a state until its last line (R135): the state after that line, or the fault or refusal that
leaves the run without a final state. -/
def runProgram : List HostOp → State → Host.Outcome State Fault Refusal
  | [], s => .next s
  | op :: ops, s =>
    match perform op s with
    | .next t => runProgram ops t
    | .fault f => .fault f
    | .refused r => .refused r

end Sys2Proof.Machine
end

