-- ==== Sys2Proof/Certificates/Slice0/Obligations.lean ====
section
/-!
DEFINITION. The statements about the mapper. They are about `exec` (one command), `perform` (one host operation), `step`
(the host's next operation) and the named operations these call, for every state, hence for every `DIM_BITS`.
-/

open Sys2Proof Sys2Proof.Machine

/-! ## Encoding and notation -/

/-- R76: every code selects the row the table gives it, and exactly one row. -/
def Obligations.EveryCommandCodeSelectsItsRow : Prop :=
  (decodeOp 0b0000#4 = .nop ∧ decodeOp 0b0001#4 = .embed ∧ decodeOp 0b0010#4 = .extract ∧
    decodeOp 0b0011#4 = .check ∧ decodeOp 0b0100#4 = .declen ∧ decodeOp 0b0101#4 = .map ∧
    decodeOp 0b0110#4 = .wrbit ∧ decodeOp 0b0111#4 = .rdbit ∧ decodeOp 0b1000#4 = .getpix ∧
    decodeOp 0b1001#4 = .setpix ∧
    decodeOp 0b1010#4 = .illegal101x 0 ∧ decodeOp 0b1011#4 = .illegal101x 1 ∧
    decodeOp 0b1100#4 = .illegal11xx 0 ∧ decodeOp 0b1101#4 = .illegal11xx 1 ∧
    decodeOp 0b1110#4 = .illegal11xx 2 ∧ decodeOp 0b1111#4 = .illegal11xx 3) ∧
  (∀ d : PortWord, decodeCommand d = decodeOp (d.extractLsb' 0 4)) ∧
  (∀ op : BitVec 4, ∃ r, rowsOf op = [r] ∧ r.name = mnemonic (decodeOp op))

/-- Decoding the encoding of a command gives it back, whatever the ignored bits [63:4] of the data hold, and encoding the
decoding of a code gives the code back. -/
def Obligations.CommandDecodeEncodeRoundTrip : Prop :=
  (∀ i : Instr, i.wellFormed = true → decodeCommand (commandData i) = i) ∧
  (∀ (i : Instr) (d : PortWord), i.wellFormed = true → d.extractLsb' 0 4 = encode i → decodeCommand d = i) ∧
  (∀ op : BitVec 4, encode (decodeOp op) = op)

/-- R78: bits [63:4] of a CMD write change nothing, and a write that ends in 1 runs EMBED. -/
def Obligations.IgnoredCommandBitsChangeNothing : Prop :=
  ∀ (s : State) (ops : List HostOp) (d e : PortWord), d.extractLsb' 0 4 = e.extractLsb' 0 4 →
    step (s.withProgram (.regWr 0#5 d :: ops)) = step (s.withProgram (.regWr 0#5 e :: ops)) ∧
    (d.extractLsb' 0 4 = 1#4 → step (s.withProgram (.regWr 0#5 d :: ops)) = exec .embed (s.withProgram ops))

/-- The reader of records undoes their writer, for every host operation that has a record; and every operation the block
does not refuse has one. The digits' case and an image without separators are the model's choice (log entry 6). -/
def Obligations.HostRecordRoundTrip : Prop :=
  (∀ (op : HostOp) (r : List Char), recordOf op = some r → readRecord r = some op) ∧
  (∀ (d : Nat) (op : HostOp), d ≤ 30 → op.wellFormed d = true → ∃ r, recordOf op = some r)

/-- R73, its closing sentence: the record of a command is `W 00 000000000000000o`. -/
def Obligations.CommandRecordIsItsDigit : Prop :=
  ∀ op : BitVec 4, ∃ o : Char, hexDigitValue o = some op.toNat ∧
    recordOf (.regWr 0#5 (op.setWidth 64)) = some ("W 00 000000000000000".toList ++ [o])

/-- R81: the three pseudo-operations expand as the table says. -/
def Obligations.PseudoOperationsExpand : Prop :=
  (∀ (images : List (String × List Byte)) (c : Instr), (Line.cmd c).wellFormed = true →
    expandLine images (.cmd c) = expandLine images (.wr .cmd (encode c).toNat)) ∧
  (∀ (images : List (String × List Byte)) (bi : Nat) (r g b : Bool), bi < 8 →
    expandLine images (.wrcfg bi r g b) =
      expandLine images (.wr .config (bi + 8 * r.toNat + 16 * g.toNat + 32 * b.toNat))) ∧
  (∀ (images : List (String × List Byte)) (a : Nat) (text : String), (Line.paywText a text).wellFormed = true →
    ∃ ops, expandLine images (.paywText a text) = some ops ∧ ops.length = text.toList.length ∧
      ∀ (j : Nat) (c : Char), text.toList[j]? = some c →
        expandLine images (.payw (a + j) c.toNat) = some (ops[j]?.toList))

/-- R82 with R73: the records of a program read back as the operations of its lines, in order. -/
def Obligations.ProgramRecordsReadBack : Prop :=
  ∀ (images : List (String × List Byte)) (p : List Line) (rs : List (List Char)), encodeProgram images p = some rs →
    ∃ ops, expandProgram images p = some ops ∧ rs.map readRecord = ops.map some

/-! ## Steps -/

/-- From R20, through the model's own queue and table word: with a write to index 0 at the head of the queue `pending`, the
step runs the command of its low four bits; with a table word placed by `withFetchWord`, the step runs that word's command;
CMD reads 0. The queue and `withFetchWord` are the model's choice (log entry 3), and so is how a table word is laid in the
data (log entry 9). -/
def Obligations.StepRunsTheDecodedCommand : Prop :=
  (∀ (s : State) (d : PortWord) (ops : List HostOp), s.pending = .regWr 0#5 d :: ops →
    step s = exec (decodeOp (d.extractLsb' 0 4)) { s with pending := ops }) ∧
  (∀ (s : State) (i : Instr), i.wellFormed = true → step (s.withFetchWord 8 (encode i).toNat) = exec i s) ∧
  (∀ s : State, portRead s 0#5 = 0)

/-- The host's operations are performed one a step, in the order it issues them (R65), and no operation touches those
still to come, the results already returned or the implementation parameter; with none issued the block waits (R123). The queue
of operations and the list of results are the model's (log entry 3). -/
def Obligations.OperationsRunInIssueOrder : Prop :=
  (∀ s : State, s.pending = [] → step s = .next s) ∧
  (∀ (s : State) (op : HostOp) (ops : List HostOp), s.pending = op :: ops →
    step s = perform op { s with pending := ops }) ∧
  (∀ (s t : State) (op : HostOp) (ops : List HostOp), s.pending = op :: ops → step s = .next t →
    t.pending = ops ∧ t.dimBits = s.dimBits ∧ s.replies <+: t.replies)

/-- From R16, R17 and R135: the steps of the machine, one for each operation of the queue, are the run of the host program:
they end in the state after its last line, or in the fault or refusal the run reaches. The queue that `step` reads,
`withProgram` that fills it and `runProgram` are the model's choice (log entry 3). -/
def Obligations.StepsRunTheHostProgram : Prop :=
  ∀ (ops : List HostOp) (s : State),
    Sys2Proof.core.run ops.length (s.withProgram ops) = runProgram ops (s.withProgram [])

/-- Every host operation goes on to a next state, except: a LOAD_GRID that does not fit (R109), a PAY_RD of an unwritten
cell, and an EMBED that passes its capacity check and then meets an unwritten cell (R108). -/
def Obligations.ModelStopsExactlyWhereTheSpecDoes : Prop :=
  (∀ (s : State) (f : Fault) (op : HostOp), perform op s = .fault f ↔
    (∃ a, op = .payRd a ∧ payRead s a.toNat = none ∧ f = .uninitPayload a) ∨
    (∃ d a, op = .regWr 0#5 d ∧ d.extractLsb' 0 4 = 1#4 ∧ need s.payLen.toNat ≤ cap s ∧ a < s.payLen.toNat ∧
      payRead s a = none ∧ (∀ b < a, payRead s b ≠ none) ∧ f = .uninitPayload (BitVec.ofNat 32 a))) ∧
  (∀ (s : State) (r : Refusal) (op : HostOp), perform op s = .refused r ↔
    (∃ w h img, op = .loadGrid w h img ∧
      (2 ^ s.dimBits ≤ w ∨ 2 ^ s.dimBits ≤ h ∨ img.length ≠ 4 * w * h) ∧ r = .loadGridDoesNotFit))

/-- The invariant holds after power-on. The DIM_BITS of that state is the model's choice (log entry 1). -/
def Obligations.ResetStateMeetsTheInvariant : Prop := State.reset.Wf

/-- The invariant (`State.Wf`: the DIM_BITS registers fit, MAP_CH is never 3, STATUS is never DECODE_ERROR, the counts
are within their bounds, the pixel memory is the grid of WIDTH and HEIGHT, the payload memory is canonical) holds after
every step from a state that meets it, whatever the host's next operation is. -/
def Obligations.EveryStepKeepsTheInvariant : Prop :=
  ∀ s t : State, s.Wf → step s = .next t → t.Wf

/-! ## Reset and the host port -/

/-- R121: what RESET leaves, from any state. -/
def Obligations.ResetLeavesTheResetValues : Prop :=
  ∀ s : State, ∃ t, perform .reset s = .next t ∧
    t.status = .ok ∧ t.config = 0x08#6 ∧ bitIndex t = 0 ∧ ctR t = true ∧ ctG t = false ∧ ctB t = false ∧
    t.width = 0 ∧ t.height = 0 ∧ t.payLen = 0 ∧ t.lenOut = 0 ∧ t.needBits = 0 ∧ t.availBits = 0 ∧ t.argK = 0 ∧
    t.bitIo = 0 ∧ t.argX = 0 ∧ t.argY = 0 ∧ t.pixData = 0 ∧ t.mapX = 0 ∧ t.mapY = 0 ∧ t.mapCh = 0 ∧ t.mapBit = 0 ∧
    t.grid = [] ∧ (∀ a, payRead t a = none) ∧ portRead t 0#5 = 0

/-- R122: power-on and RESET have the same effect on the block; the implementation parameter (log entry 1) and the host's
side of the port (log entry 3) are no state of the block. -/
def Obligations.PowerOnEqualsReset : Prop :=
  ∀ s : State, perform .reset s = .next { State.reset with
    dimBits := s.dimBits, pending := s.pending, replies := s.replies }

/-- R18, R19: each index reads its register, zero-extended, and the unassigned indices read 0; reading returns that value
to the host and changes nothing else. -/
def Obligations.PortReadsZeroExtendedRegisters : Prop :=
  ∀ s : State,
    portRead s 0#5 = 0 ∧ (portRead s 1#5).toNat = (statusCode s.status).toNat ∧
    (portRead s 2#5).toNat = s.config.toNat ∧ (portRead s 3#5).toNat = s.width.toNat ∧
    (portRead s 4#5).toNat = s.height.toNat ∧ (portRead s 5#5).toNat = s.payLen.toNat ∧
    (portRead s 6#5).toNat = s.lenOut.toNat ∧ portRead s 7#5 = s.needBits ∧ portRead s 8#5 = s.availBits ∧
    portRead s 9#5 = s.argK ∧ (portRead s 10#5).toNat = s.bitIo.toNat ∧ (portRead s 11#5).toNat = s.argX.toNat ∧
    (portRead s 12#5).toNat = s.argY.toNat ∧ (portRead s 13#5).toNat = s.pixData.toNat ∧
    (portRead s 14#5).toNat = s.mapX.toNat ∧ (portRead s 15#5).toNat = s.mapY.toNat ∧
    (portRead s 16#5).toNat = s.mapCh.toNat ∧ (portRead s 17#5).toNat = s.mapBit.toNat ∧
    (∀ i : RegIndex, 18 ≤ i.toNat → portRead s i = 0) ∧
    (∀ i : RegIndex, perform (.regRd i) s = .next { s with replies := s.replies ++ [.word (portRead s i)] })

/-- R19: a write to a read-write register of width w stores the low w bits of the data, which then read back; no other
register and no memory changes. -/
def Obligations.PortWriteStoresTheLowBits : Prop :=
  ∀ (s : State) (i : RegIndex) (w : Nat) (d : PortWord), 1 ≤ s.dimBits → s.dimBits ≤ 30 →
    (i, w) ∈ [(2#5, 6), (5#5, 32), (9#5, 64), (10#5, 1), (11#5, s.dimBits), (12#5, s.dimBits), (13#5, 32)] →
    ∃ t, perform (.regWr i d) s = .next t ∧ (portRead t i).toNat = d.toNat % 2 ^ w ∧
      (∀ j : RegIndex, j ≠ i → portRead t j = portRead s j) ∧
      t.grid = s.grid ∧ t.payload = s.payload ∧ t.dimBits = s.dimBits ∧ t.pending = s.pending ∧ t.replies = s.replies

/-- R18, R19: a write to a read-only register or to an unassigned index changes nothing. -/
def Obligations.ReadOnlyAndUnassignedWritesAreIgnored : Prop :=
  ∀ (s : State) (i : RegIndex) (d : PortWord),
    (i ∈ [1#5, 3#5, 4#5, 6#5, 7#5, 8#5, 14#5, 15#5, 16#5, 17#5] ∨ 18 ≤ i.toNat) →
    perform (.regWr i d) s = .next s

/-- R44 with R17, R131: LOAD_GRID sets WIDTH, HEIGHT and every channel from byte 4·p + c of the image and changes nothing
else; DUMP_GRID returns the 4·WIDTH·HEIGHT bytes of the grid, byte 4·p + c being channel c of pixel p, and changes
nothing; after a LOAD_GRID it returns the image loaded. -/
def Obligations.GridByteImageLayout : Prop :=
  (∀ (s : State) (w h : Nat) (img : List Byte), s.dimBits ≤ 30 → w < 2 ^ s.dimBits → h < 2 ^ s.dimBits →
    img.length = 4 * w * h →
    ∃ t, perform (.loadGrid w h img) s = .next t ∧
      t = { s with width := t.width, height := t.height, grid := t.grid } ∧
      t.width.toNat = w ∧ t.height.toNat = h ∧ t.GridFull ∧
      (∀ x y c, x < w → y < h → img[4 * (y * w + x) + channelIndex c]? = some (pixRead t x y c)) ∧
      perform .dumpGrid t = .next { t with replies := t.replies ++ [.image img] }) ∧
  (∀ s : State, s.GridFull →
    ∃ img, perform .dumpGrid s = .next { s with replies := s.replies ++ [.image img] } ∧
      img.length = 4 * s.width.toNat * s.height.toNat ∧
      ∀ x y c, x < s.width.toNat → y < s.height.toNat →
        img[4 * (y * s.width.toNat + x) + channelIndex c]? = some (pixRead s x y c))

/-- R109: LOAD_GRID is refused when a dimension or the image does not fit. -/
def Obligations.UnfitLoadGridIsRefused : Prop :=
  ∀ (s : State) (w h : Nat) (img : List Byte),
    (2 ^ s.dimBits ≤ w ∨ 2 ^ s.dimBits ≤ h ∨ img.length ≠ 4 * w * h) →
    perform (.loadGrid w h img) s = .refused .loadGridDoesNotFit

/-- R47: a payload write sets one byte and nothing else, and PAY_RD then returns it. -/
def Obligations.PayloadWriteThenRead : Prop :=
  ∀ (s : State) (a : PayAddr) (v : Byte), ∃ t, perform (.payWr a v) s = .next t ∧
    t = { s with payload := t.payload } ∧ payRead t a.toNat = some v ∧
    (∀ b, b ≠ a.toNat → payRead t b = payRead s b) ∧
    perform (.payRd a) t = .next { t with replies := t.replies ++ [.byte v] }

/-- R108: PAY_RD of an unwritten cell, and EMBED at the first unwritten cell once its capacity check has passed, are the
model fault UNINIT_PAYLOAD; an EMBED whose capacity check fails never is. -/
def Obligations.UnwrittenPayloadReadsFault : Prop :=
  (∀ (s : State) (a : PayAddr), payRead s a.toNat = none → perform (.payRd a) s = .fault (.uninitPayload a)) ∧
  (∀ (s : State) (a : Nat), need s.payLen.toNat ≤ cap s → a < s.payLen.toNat → payRead s a = none →
    (∀ b < a, payRead s b ≠ none) → exec .embed s = .fault (.uninitPayload (BitVec.ofNat 32 a))) ∧
  (∀ s : State, cap s < need s.payLen.toNat → ∃ t, exec .embed s = .next t ∧ t.status = .capacityError)

/-! ## The traversal and the bits -/

/-- R56: the channel list holds the enabled channels, once each, in the order R, G, B; never A. -/
def Obligations.ChannelTargetListIsOrdered : Prop :=
  ∀ s : State,
    ((.r ∈ ctList s) ↔ s.config.getLsbD 3 = true) ∧ ((.g ∈ ctList s) ↔ s.config.getLsbD 4 = true) ∧
    ((.b ∈ ctList s) ↔ s.config.getLsbD 5 = true) ∧ (.a ∉ ctList s) ∧
    (ctList s).Pairwise (fun c d => channelIndex c < channelIndex d) ∧
    (ctList s).length = (s.config.getLsbD 3).toNat + (s.config.getLsbD 4).toNat + (s.config.getLsbD 5).toNat

/-- R58, R59: capacity and need are exact and fit the report registers. -/
def Obligations.CountsAreExactAndFit : Prop :=
  (∀ s : State, cap s = s.width.toNat * s.height.toNat *
      ((s.config.getLsbD 3).toNat + (s.config.getLsbD 4).toNat + (s.config.getLsbD 5).toNat) ∧ cap s < 2 ^ 62 ∧
      ((s.width = 0 ∨ s.height = 0 ∨ ctList s = []) → cap s = 0)) ∧
  (∀ len : BitVec 32, need len.toNat = 32 + 8 * len.toNat ∧ need len.toNat ≤ 34359738392) ∧
  need (2 ^ 32 - 1) = 34359738392

/-- R57: below the capacity, `map` is given by the formulas, stays in range, is a bijection onto the coordinates and
target channels of the grid, and visits pixels in ascending index and channels in list order. -/
def Obligations.TraversalMapIsARowMajorBijection : Prop :=
  ∀ s : State,
    (∀ k, k < cap s →
      (mapPos s k).x = k / (ctList s).length % s.width.toNat ∧
      (mapPos s k).y = k / (ctList s).length / s.width.toNat ∧
      (ctList s)[k % (ctList s).length]? = some (mapPos s k).ch ∧
      (mapPos s k).bit = s.config.toNat % 8 ∧
      (mapPos s k).x < s.width.toNat ∧ (mapPos s k).y < s.height.toNat) ∧
    (∀ k l, k < cap s → l < cap s → mapPos s k = mapPos s l → k = l) ∧
    (∀ x y c, x < s.width.toNat → y < s.height.toNat → c ∈ ctList s →
      ∃ k, k < cap s ∧ mapPos s k = ⟨x, y, c, bitIndex s⟩) ∧
    (∀ k l, k < l → l < cap s →
      pixelIndex s (mapPos s k).x (mapPos s k).y < pixelIndex s (mapPos s l).x (mapPos s l).y ∨
      (pixelIndex s (mapPos s k).x (mapPos s k).y = pixelIndex s (mapPos s l).x (mapPos s l).y ∧
        channelIndex (mapPos s k).ch < channelIndex (mapPos s l).ch))

/-- R60, R61: `wbit` puts b at bit i and keeps every other bit; `rbit` reads bit i. -/
def Obligations.BitWriterAndReader : Prop :=
  ∀ (v : Byte) (i : Nat) (b : Bool), i < 8 →
    (∀ j < 8, (wbit v i b).getLsbD j = if j = i then b else v.getLsbD j) ∧
    wbit v i (v.getLsbD i) = v ∧ rbit v i = v.getLsbD i ∧ rbit (wbit v i b) i = b

/-- R54, R55: the bitstream of a byte list, and the frame: 32 bits of length, most significant first, then the message
bytes, most significant bit first. -/
def Obligations.EnvelopeIsTheWireFormat : Prop :=
  (∀ bytes : List Byte, (bitsOf bytes).length = 8 * bytes.length ∧
    ∀ (i j : Nat) (v : Byte), bytes[i]? = some v → j < 8 → (bitsOf bytes)[8 * i + j]? = some (v.getLsbD (7 - j))) ∧
  (∀ (len : BitVec 32) (bytes : List Byte), bytes.length = len.toNat →
    (envelope len bytes).length = need len.toNat ∧
    (∀ j < 32, (envelope len bytes)[j]? = some (len.getLsbD (31 - j))) ∧
    (∀ (i j : Nat) (v : Byte), bytes[i]? = some v → j < 8 →
      (envelope len bytes)[32 + 8 * i + j]? = some (v.getLsbD (7 - j))))

/-- R62: a carrier bit is bit BIT_INDEX of the channel `map` gives, the declared length is the sum over the first 32
carrier bits and a message byte is the sum over its eight. -/
def Obligations.CarrierBitsDecodeBySums : Prop :=
  ∀ s : State,
    (∀ k, k < cap s → cbit s k =
      (pixRead s (mapPos s k).x (mapPos s k).y (mapPos s k).ch).getLsbD (bitIndex s)) ∧
    (32 ≤ cap s → (declaredLength s).toNat = ∑ j ∈ Finset.range 32, (cbit s j).toNat * 2 ^ (31 - j)) ∧
    (∀ i, need (i + 1) ≤ cap s →
      (messageByte s i).toNat = ∑ j ∈ Finset.range 8, (cbit s (32 + 8 * i + j)).toNat * 2 ^ (7 - j))

/-- R43: a channel write sets that channel of that pixel and changes nothing else. -/
def Obligations.PixelWriteChangesOneChannel : Prop :=
  ∀ (s : State) (x y : Nat) (c : Channel) (v : Byte), s.GridFull → x < s.width.toNat → y < s.height.toNat →
    pixRead (pixWrite x y c v s) x y c = v ∧
    (∀ x' y' c', x' < s.width.toNat → y' < s.height.toNat → (x', y', c') ≠ (x, y, c) →
      pixRead (pixWrite x y c v s) x' y' c' = pixRead s x' y' c') ∧
    pixWrite x y c v s = { s with grid := (pixWrite x y c v s).grid } ∧ (pixWrite x y c v s).GridFull

/-- R51: PIX_DATA = a << 24 | b << 16 | g << 8 | r, and unpacking is the inverse. -/
def Obligations.PixelPackingIsInvertible : Prop :=
  (∀ r g b a : Byte, (packPixel r g b a).toNat = a.toNat * 2 ^ 24 + b.toNat * 2 ^ 16 + g.toNat * 2 ^ 8 + r.toNat ∧
    unpackChannel (packPixel r g b a) .r = r ∧ unpackChannel (packPixel r g b a) .g = g ∧
    unpackChannel (packPixel r g b a) .b = b ∧ unpackChannel (packPixel r g b a) .a = a) ∧
  (∀ d : BitVec 32, packPixel (unpackChannel d .r) (unpackChannel d .g) (unpackChannel d .b) (unpackChannel d .a) = d)

/-- Derived from R66: carrier bit writes at different positions may be made in either order. -/
def Obligations.CarrierWritesCommute : Prop :=
  ∀ (s : State) (k l : Nat) (b c : Bool), k < cap s → l < cap s → k ≠ l →
    writeCarrierBit k b (writeCarrierBit l c s) = writeCarrierBit l c (writeCarrierBit k b s)

/-! ## Control and pixel access -/

/-- R94: NOP, code 0, changes nothing, STATUS included. -/
def Obligations.NopChangesNothing : Prop := (∀ s : State, exec .nop s = .next s) ∧ decodeOp 0b0000#4 = .nop

/-- R95, R105, R77: each of the codes 10 to 15 writes ILLEGAL_COMMAND, code 6, to STATUS and changes nothing else. -/
def Obligations.IllegalCodesSetStatusOnly : Prop :=
  (∀ (s : State) (x : BitVec 1), exec (.illegal101x x) s = .next { s with status := .illegalCommand }) ∧
  (∀ (s : State) (x : BitVec 2), exec (.illegal11xx x) s = .next { s with status := .illegalCommand }) ∧
  statusCode .illegalCommand = 6#4 ∧
  (∀ op : BitVec 4, 10 ≤ op.toNat →
    (∃ x, decodeOp op = .illegal101x x) ∨ ∃ x, decodeOp op = .illegal11xx x)

/-- R83: GETPIX (code 8) in range puts R, G, B, A of the pixel into PIX_DATA [7:0], [15:8], [23:16], [31:24], writes OK to STATUS
and changes nothing else; out of range it writes INDEX_ERROR and nothing else. -/
def Obligations.GetpixReadsThePixel : Prop :=
  (∀ s : State, s.argX.toNat < s.width.toNat → s.argY.toNat < s.height.toNat →
    ∃ t, exec .getpix s = .next t ∧ t = { s with pixData := t.pixData, status := .ok } ∧
      t.pixData.extractLsb' 0 8 = pixRead s s.argX.toNat s.argY.toNat .r ∧
      t.pixData.extractLsb' 8 8 = pixRead s s.argX.toNat s.argY.toNat .g ∧
      t.pixData.extractLsb' 16 8 = pixRead s s.argX.toNat s.argY.toNat .b ∧
      t.pixData.extractLsb' 24 8 = pixRead s s.argX.toNat s.argY.toNat .a) ∧
  (∀ s : State, (s.width.toNat ≤ s.argX.toNat ∨ s.height.toNat ≤ s.argY.toNat) →
    exec .getpix s = .next { s with status := .indexError }) ∧
  decodeOp 0b1000#4 = .getpix

/-- R84: SETPIX (code 9) in range writes the four channels of pixel (ARG_X, ARG_Y) from PIX_DATA, Alpha included, writes OK to
STATUS and changes no other pixel, register or memory; out of range it writes INDEX_ERROR and nothing else. -/
def Obligations.SetpixWritesThePixel : Prop :=
  (∀ s : State, s.GridFull → s.argX.toNat < s.width.toNat → s.argY.toNat < s.height.toNat →
    ∃ t, exec .setpix s = .next t ∧ t = { s with grid := t.grid, status := .ok } ∧ t.GridFull ∧
      pixRead t s.argX.toNat s.argY.toNat .r = s.pixData.extractLsb' 0 8 ∧
      pixRead t s.argX.toNat s.argY.toNat .g = s.pixData.extractLsb' 8 8 ∧
      pixRead t s.argX.toNat s.argY.toNat .b = s.pixData.extractLsb' 16 8 ∧
      pixRead t s.argX.toNat s.argY.toNat .a = s.pixData.extractLsb' 24 8 ∧
      (∀ x y c, x < s.width.toNat → y < s.height.toNat → (x, y) ≠ (s.argX.toNat, s.argY.toNat) →
        pixRead t x y c = pixRead s x y c)) ∧
  (∀ s : State, (s.width.toNat ≤ s.argX.toNat ∨ s.height.toNat ≤ s.argY.toNat) →
    exec .setpix s = .next { s with status := .indexError }) ∧
  decodeOp 0b1001#4 = .setpix

/-- A GETPIX after a SETPIX at the same coordinates reads back what was written (vector V28). -/
def Obligations.GetpixAfterSetpixReadsBack : Prop :=
  ∀ s t : State, s.GridFull → exec .setpix s = .next t → t.status = .ok →
    ∀ d : BitVec 32, ∃ u, exec .getpix { t with pixData := d } = .next u ∧ u.status = .ok ∧ u.pixData = s.pixData

/-- R103: INDEX_ERROR is raised exactly on a coordinate or position out of range, records nothing but STATUS, and is never
raised by EMBED, EXTRACT, CHECK or DECLEN. -/
def Obligations.IndexErrorRecordsOnlyStatus : Prop :=
  (∀ (s : State) (i : Instr), i = .getpix ∨ i = .setpix →
    ((s.width.toNat ≤ s.argX.toNat ∨ s.height.toNat ≤ s.argY.toNat) →
      exec i s = .next { s with status := .indexError }) ∧
    (∀ t, exec i s = .next t → t.status = .indexError →
      s.width.toNat ≤ s.argX.toNat ∨ s.height.toNat ≤ s.argY.toNat)) ∧
  (∀ (s : State) (i : Instr), i = .map ∨ i = .wrbit ∨ i = .rdbit →
    (cap s ≤ s.argK.toNat → exec i s = .next { s with status := .indexError }) ∧
    (∀ t, exec i s = .next t → t.status = .indexError → cap s ≤ s.argK.toNat)) ∧
  (∀ (s t : State) (i : Instr), i = .embed ∨ i = .extract ∨ i = .check ∨ i = .declen →
    exec i s = .next t → t.status ≠ .indexError) ∧
  statusCode .indexError = 4#4

/-! ## Embed -/

/-- R85: CHECK (code 3) reports need(PAY_LEN) and cap, exactly, and writes OK or CAPACITY_ERROR; nothing else changes. -/
def Obligations.CheckReportsTheCapacityTest : Prop :=
  (∀ s : State, ∃ t, exec .check s = .next t ∧
    t = { s with needBits := t.needBits, availBits := t.availBits, status := t.status } ∧
    t.needBits.toNat = 32 + 8 * s.payLen.toNat ∧ t.availBits.toNat = cap s ∧
    (cap s < 32 + 8 * s.payLen.toNat → t.status = .capacityError) ∧
    (32 + 8 * s.payLen.toNat ≤ cap s → t.status = .ok)) ∧
  decodeOp 0b0011#4 = .check

/-- R86: with room for the frame and its bytes written, EMBED goes on to a state in which the carrier bits spell the
length and the message, STATUS is OK, the counts are reported, and nothing else has changed: no other register, no
payload byte, no bit of the grid outside bit BIT_INDEX of the channels at `map(0)` .. `map(need(L) − 1)`. Without the
room it changes the two counts and STATUS only; with the room and an unwritten byte it is the model fault at the first
such byte. EMBED is code 1. -/
def Obligations.EmbedWritesTheFrame : Prop :=
  (∀ s : State, s.GridFull → s.PayloadReady → 32 + 8 * s.payLen.toNat ≤ cap s →
    ∃ t, exec .embed s = .next t ∧
      t = { s with grid := t.grid, needBits := t.needBits, availBits := t.availBits, status := .ok } ∧ t.GridFull ∧
      t.needBits.toNat = 32 + 8 * s.payLen.toNat ∧ t.availBits.toNat = cap s ∧
      (∀ j < 32, cbit t j = s.payLen.getLsbD (31 - j)) ∧
      (∀ (i j : Nat) (v : Byte), i < s.payLen.toNat → j < 8 → payRead s i = some v →
        cbit t (32 + 8 * i + j) = v.getLsbD (7 - j)) ∧
      (∀ x y c j, x < s.width.toNat → y < s.height.toNat →
        (∀ k < 32 + 8 * s.payLen.toNat, mapPos s k ≠ ⟨x, y, c, j⟩) →
        (pixRead t x y c).getLsbD j = (pixRead s x y c).getLsbD j)) ∧
  (∀ s : State, cap s < 32 + 8 * s.payLen.toNat → ∃ t, exec .embed s = .next t ∧
    t = { s with needBits := t.needBits, availBits := t.availBits, status := .capacityError } ∧
    t.needBits.toNat = 32 + 8 * s.payLen.toNat ∧ t.availBits.toNat = cap s) ∧
  (∀ s : State, ¬ s.PayloadReady → 32 + 8 * s.payLen.toNat ≤ cap s → ∃ a, a.toNat < s.payLen.toNat ∧
    payRead s a.toNat = none ∧ (∀ b < a.toNat, payRead s b ≠ none) ∧ exec .embed s = .fault (.uninitPayload a)) ∧
  decodeOp 0b0001#4 = .embed

/-- R100: with too little room, EMBED and CHECK write the two counts and CAPACITY_ERROR, code 1, and nothing else,
whether or not the payload is written. -/
def Obligations.CapacityErrorReportsBothCounts : Prop :=
  (∀ (s : State) (i : Instr), i = .embed ∨ i = .check → cap s < 32 + 8 * s.payLen.toNat →
    ∃ t, exec i s = .next t ∧
      t = { s with needBits := t.needBits, availBits := t.availBits, status := .capacityError } ∧
      t.needBits.toNat = 32 + 8 * s.payLen.toNat ∧ t.availBits.toNat = cap s) ∧
  statusCode .capacityError = 1#4

/-- R87: Alpha invariance, non-target invariance, the termination rule, the written bits, and the capacity boundary. -/
def Obligations.EmbedInvariances : Prop :=
  (∀ s t : State, s.GridFull → exec .embed s = .next t → t.status = .ok →
    (∀ x y, x < s.width.toNat → y < s.height.toNat → pixRead t x y .a = pixRead s x y .a) ∧
    (∀ x y c, x < s.width.toNat → y < s.height.toNat → c ∉ ctList s → pixRead t x y c = pixRead s x y c) ∧
    (∀ x y c j, x < s.width.toNat → y < s.height.toNat → j ≠ bitIndex s →
      (pixRead t x y c).getLsbD j = (pixRead s x y c).getLsbD j) ∧
    (∀ k, need s.payLen.toNat ≤ k → k < cap s →
      pixRead t (mapPos s k).x (mapPos s k).y (mapPos s k).ch =
        pixRead s (mapPos s k).x (mapPos s k).y (mapPos s k).ch) ∧
    (∀ bytes : List Byte, bytes.length = s.payLen.toNat → (∀ i < s.payLen.toNat, payRead s i = bytes[i]?) →
      ∀ k < need s.payLen.toNat, (envelope s.payLen bytes)[k]? = some (cbit t k))) ∧
  (∀ s t : State, exec .embed s = .next t → t.status = .capacityError → t.grid = s.grid) ∧
  (∀ s : State, s.PayloadReady → need s.payLen.toNat = cap s → ∃ t, exec .embed s = .next t ∧ t.status = .ok) ∧
  (∀ s : State, need s.payLen.toNat = cap s + 1 → ∃ t, exec .embed s = .next t ∧ t.status = .capacityError)

/-! ## Extract -/

/-- R88: DECLEN (code 4) decodes the header into LEN_OUT and reports need and cap; OK when the frame fits, TRUNCATION_ERROR when
it does not, FORMAT_ERROR without a LEN_OUT write when there is no room for a header; nothing else changes. -/
def Obligations.DeclenDecodesTheHeader : Prop :=
  (∀ s : State,
    (cap s < 32 → ∃ t, exec .declen s = .next t ∧
      t = { s with needBits := t.needBits, availBits := t.availBits, status := .formatError } ∧
      t.needBits.toNat = 32 ∧ t.availBits.toNat = cap s) ∧
    (32 ≤ cap s → ∃ t, exec .declen s = .next t ∧
      t = { s with lenOut := t.lenOut, needBits := t.needBits, availBits := t.availBits, status := t.status } ∧
      t.lenOut.toNat = (∑ j ∈ Finset.range 32, (cbit s j).toNat * 2 ^ (31 - j)) ∧
      t.needBits.toNat = 32 + 8 * t.lenOut.toNat ∧ t.availBits.toNat = cap s ∧
      (32 + 8 * t.lenOut.toNat ≤ cap s → t.status = .ok) ∧
      (cap s < 32 + 8 * t.lenOut.toNat → t.status = .truncationError))) ∧
  decodeOp 0b0100#4 = .declen

/-- R89: EXTRACT (code 2) does what DECLEN does and, where the frame fits, writes the message bytes to payload cells 0 .. L − 1;
cells from L on keep what they hold, and on an error no payload byte is written; no pixel changes. -/
def Obligations.ExtractRecoversTheMessage : Prop :=
  (∀ s : State,
    (cap s < 32 → ∃ t, exec .extract s = .next t ∧
      t = { s with needBits := t.needBits, availBits := t.availBits, status := .formatError } ∧
      t.needBits.toNat = 32 ∧ t.availBits.toNat = cap s) ∧
    (32 ≤ cap s → ∃ t, exec .extract s = .next t ∧
      t = { s with lenOut := t.lenOut, needBits := t.needBits, availBits := t.availBits, status := t.status,
                   payload := t.payload } ∧
      t.lenOut.toNat = (∑ j ∈ Finset.range 32, (cbit s j).toNat * 2 ^ (31 - j)) ∧
      t.needBits.toNat = 32 + 8 * t.lenOut.toNat ∧ t.availBits.toNat = cap s ∧
      (cap s < 32 + 8 * t.lenOut.toNat → t.status = .truncationError ∧ t.payload = s.payload) ∧
      (32 + 8 * t.lenOut.toNat ≤ cap s → t.status = .ok ∧
        (∀ i < t.lenOut.toNat, ∃ v, payRead t i = some v ∧
          v.toNat = ∑ j ∈ Finset.range 8, (cbit s (32 + 8 * i + j)).toNat * 2 ^ (7 - j)) ∧
        (∀ a, t.lenOut.toNat ≤ a → payRead t a = payRead s a)))) ∧
  decodeOp 0b0010#4 = .extract

/-- R101: FORMAT_ERROR, code 2, from EXTRACT and DECLEN exactly when cap < 32, with NEED_BITS 32 and AVAIL_BITS cap. -/
def Obligations.FormatErrorExactlyWithoutHeaderRoom : Prop :=
  (∀ (s : State) (i : Instr), i = .extract ∨ i = .declen →
    (cap s < 32 → ∃ t, exec i s = .next t ∧
      t = { s with needBits := t.needBits, availBits := t.availBits, status := .formatError } ∧
      t.needBits.toNat = 32 ∧ t.availBits.toNat = cap s)) ∧
  (∀ (s t : State) (i : Instr), i ≠ .nop → exec i s = .next t → t.status = .formatError →
    (i = .extract ∨ i = .declen) ∧ cap s < 32) ∧
  statusCode .formatError = 2#4

/-- R102: TRUNCATION_ERROR, code 3, from EXTRACT and DECLEN when cap ≥ 32 and need(L) > cap, with LEN_OUT = L, NEED_BITS =
need(L) and AVAIL_BITS = cap; no payload byte is written. -/
def Obligations.TruncationErrorReportsTheLength : Prop :=
  (∀ (s : State) (i : Instr), i = .extract ∨ i = .declen → 32 ≤ cap s → cap s < need (declaredLength s).toNat →
    ∃ t, exec i s = .next t ∧
      t = { s with lenOut := declaredLength s, needBits := t.needBits, availBits := t.availBits,
                   status := .truncationError } ∧
      t.needBits.toNat = need (declaredLength s).toNat ∧ t.availBits.toNat = cap s) ∧
  statusCode .truncationError = 3#4

/-- R90 item 3: EXTRACT and DECLEN end with STATUS 0, 2 or 3 on every grid and every CONFIG. -/
def Obligations.ExtractionIsTotal : Prop :=
  ∀ (s : State) (i : Instr), i = .extract ∨ i = .declen → ∃ t, exec i s = .next t ∧
    (t.status = .ok ∨ t.status = .formatError ∨ t.status = .truncationError)

/-- R90 item 1: after an EMBED that ends with OK, an EXTRACT in any state with the same grid, dimensions and CONFIG ends
with OK, gives back the length, and its payload cells hold the bytes embedded. -/
def Obligations.ExtractAfterEmbedRoundTrip : Prop :=
  ∀ s t u : State, s.GridFull → exec .embed s = .next t → t.status = .ok →
    u.grid = t.grid → u.width = t.width → u.height = t.height → u.config = t.config →
    ∃ v, exec .extract u = .next v ∧ v.status = .ok ∧ v.lenOut = s.payLen ∧
      (∀ i < s.payLen.toNat, payRead v i = payRead s i)

/-- R71 with R90 item 2: the reading operations change no state of the block, the reading commands change no memory,
EXTRACT changes no pixel, and a second EXTRACT changes nothing. -/
def Obligations.ReadsAreIdempotent : Prop :=
  (∀ (s t : State) (op : HostOp), (∃ i, op = .regRd i) ∨ op = .dumpGrid ∨ (∃ a, op = .payRd a) →
    perform op s = .next t → s.SameBlock t) ∧
  (∀ (s t : State) (i : Instr), i = .map ∨ i = .rdbit ∨ i = .getpix ∨ i = .check ∨ i = .declen →
    exec i s = .next t → t.grid = s.grid ∧ t.payload = s.payload) ∧
  (∀ s t : State, exec .extract s = .next t → t.grid = s.grid) ∧
  (∀ s t : State, s.Wf → exec .extract s = .next t → exec .extract t = .next t)

/-- R62, last sentence, and R89, corner cases: EXTRACT and DECLEN depend on no carrier bit at or above need(L) (below the
capacity), and DECLEN on none at or above 32: two grids that agree on those bits give the same registers and payload. -/
def Obligations.ExtractReadsOnlyTheFrame : Prop :=
  ∀ s u : State, u = { s with grid := u.grid } →
    ((∀ k, k < cap s → k < need (declaredLength s).toNat → cbit u k = cbit s k) →
      ∃ t, exec .extract s = .next t ∧ exec .extract u = .next { t with grid := u.grid }) ∧
    ((∀ k, k < cap s → k < 32 → cbit u k = cbit s k) →
      ∃ t, exec .declen s = .next t ∧ exec .declen u = .next { t with grid := u.grid })

/-! ## Bit mapping -/

/-- R91: below the capacity MAP (code 5) writes the four results and OK, and nothing else; from the capacity on it writes
INDEX_ERROR and nothing else. -/
def Obligations.MapWritesThePosition : Prop :=
  (∀ s : State, s.argK.toNat < cap s → ∃ t, exec .map s = .next t ∧
    t = { s with mapX := t.mapX, mapY := t.mapY, mapCh := t.mapCh, mapBit := t.mapBit, status := .ok } ∧
    t.mapX.toNat = s.argK.toNat / (ctList s).length % s.width.toNat ∧
    t.mapY.toNat = s.argK.toNat / (ctList s).length / s.width.toNat ∧
    (∃ c, (ctList s)[s.argK.toNat % (ctList s).length]? = some c ∧ t.mapCh.toNat = channelIndex c) ∧
    t.mapBit = s.config.extractLsb' 0 3) ∧
  (∀ s : State, cap s ≤ s.argK.toNat → exec .map s = .next { s with status := .indexError }) ∧
  decodeOp 0b0101#4 = .map

/-- R92: below the capacity WRBIT (code 6) puts BIT_IO at bit BIT_INDEX of the channel at `map(ARG_K)`, writes OK, and changes no
other bit, register or memory; from the capacity on it writes INDEX_ERROR and nothing else. -/
def Obligations.WrbitWritesOneCarrierBit : Prop :=
  (∀ s : State, s.GridFull → s.argK.toNat < cap s → ∃ t, exec .wrbit s = .next t ∧
    t = { s with grid := t.grid, status := .ok } ∧ t.GridFull ∧
    (pixRead t (mapPos s s.argK.toNat).x (mapPos s s.argK.toNat).y (mapPos s s.argK.toNat).ch).getLsbD (bitIndex s)
      = s.bitIo.getLsbD 0 ∧
    (∀ x y c j, x < s.width.toNat → y < s.height.toNat → mapPos s s.argK.toNat ≠ ⟨x, y, c, j⟩ →
      (pixRead t x y c).getLsbD j = (pixRead s x y c).getLsbD j)) ∧
  (∀ s : State, cap s ≤ s.argK.toNat → exec .wrbit s = .next { s with status := .indexError }) ∧
  decodeOp 0b0110#4 = .wrbit

/-- R93: below the capacity RDBIT (code 7) puts the carrier bit at ARG_K into BIT_IO, writes OK, and changes nothing else; from the
capacity on it writes INDEX_ERROR and nothing else. After a WRBIT at the same position it reads the bit written. -/
def Obligations.RdbitReadsOneCarrierBit : Prop :=
  (∀ s : State, s.argK.toNat < cap s → ∃ t, exec .rdbit s = .next t ∧
    t = { s with bitIo := t.bitIo, status := .ok } ∧
    t.bitIo.getLsbD 0 =
      (pixRead s (mapPos s s.argK.toNat).x (mapPos s s.argK.toNat).y (mapPos s s.argK.toNat).ch).getLsbD (bitIndex s)) ∧
  (∀ s : State, cap s ≤ s.argK.toNat → exec .rdbit s = .next { s with status := .indexError }) ∧
  (∀ s t : State, s.GridFull → s.argK.toNat < cap s → exec .wrbit s = .next t →
    ∀ d : BitVec 1, exec .rdbit { t with bitIo := d } = .next t) ∧
  decodeOp 0b0111#4 = .rdbit

/-! ## Rules about all commands -/

/-- R99: a command that ends with an error has changed STATUS and the report registers at most. -/
def Obligations.ErrorsArePrecise : Prop :=
  ∀ (s t : State) (i : Instr), i ≠ .nop → exec i s = .next t → t.status ≠ .ok →
    t = { s with status := t.status, needBits := t.needBits, availBits := t.availBits, lenOut := t.lenOut }

/-- The column "written by the block" of the table of R18: a command changes a register only where the table names it,
and never the host's side of the port. -/
def Obligations.CommandsWriteOnlyTheirRegisters : Prop :=
  ∀ (s t : State) (i : Instr), exec i s = .next t →
    (t.config = s.config ∧ t.width = s.width ∧ t.height = s.height ∧ t.payLen = s.payLen ∧ t.argK = s.argK ∧
      t.argX = s.argX ∧ t.argY = s.argY ∧ t.dimBits = s.dimBits ∧ t.pending = s.pending ∧ t.replies = s.replies) ∧
    (i = .nop → t.status = s.status) ∧
    (i ≠ .extract → i ≠ .declen → t.lenOut = s.lenOut) ∧
    (i ≠ .embed → i ≠ .check → i ≠ .extract → i ≠ .declen → t.needBits = s.needBits ∧ t.availBits = s.availBits) ∧
    (i ≠ .rdbit → t.bitIo = s.bitIo) ∧ (i ≠ .getpix → t.pixData = s.pixData) ∧
    (i ≠ .map → t.mapX = s.mapX ∧ t.mapY = s.mapY ∧ t.mapCh = s.mapCh ∧ t.mapBit = s.mapBit)

/-- R45: WIDTH and HEIGHT change only by LOAD_GRID and RESET, the pixels only by LOAD_GRID, EMBED, WRBIT, SETPIX (and
RESET, which leaves none). -/
def Obligations.OnlyNamedOperationsChangeTheGrid : Prop :=
  (∀ (s t : State) (op : HostOp), perform op s = .next t → (∀ w h img, op ≠ .loadGrid w h img) → op ≠ .reset →
    t.width = s.width ∧ t.height = s.height ∧
    ((∀ d, op = .regWr 0#5 d →
        decodeCommand d ≠ .embed ∧ decodeCommand d ≠ .wrbit ∧ decodeCommand d ≠ .setpix) → t.grid = s.grid)) ∧
  (∀ s t : State, perform .reset s = .next t → t.width = 0 ∧ t.height = 0 ∧ t.grid = [])

/-- R49, the payload row: only PAY_WR and EXTRACT write the payload memory (and RESET, which empties it). -/
def Obligations.OnlyNamedOperationsChangeThePayload : Prop :=
  ∀ (s t : State) (op : HostOp), perform op s = .next t → (∀ a v, op ≠ .payWr a v) → op ≠ .reset →
    (∀ d, op = .regWr 0#5 d → decodeCommand d ≠ .extract) → t.payload = s.payload

/-- R22: Alpha is never a target: of all commands only SETPIX changes an Alpha value. -/
def Obligations.OnlySetpixWritesAlpha : Prop :=
  ∀ (s t : State) (i : Instr), s.GridFull → i ≠ .setpix → exec i s = .next t →
    ∀ x y, x < s.width.toNat → y < s.height.toNat → pixRead t x y .a = pixRead s x y .a

/-- From R21, R104 and R106: the codes are 0 to 6, DECODE_ERROR is never written, and STATUS keeps its value over every
operation but RESET and a CMD write. That no STATUS has a code above 6 is the model's representation (log entry 4), not a
rule of the spec. -/
def Obligations.StatusIsWrittenByCommandsOnly : Prop :=
  (statusCode .ok = 0#4 ∧ statusCode .capacityError = 1#4 ∧ statusCode .formatError = 2#4 ∧
    statusCode .truncationError = 3#4 ∧ statusCode .indexError = 4#4 ∧ statusCode .decodeError = 5#4 ∧
    statusCode .illegalCommand = 6#4 ∧ ∀ c, (statusCode c).toNat ≤ 6) ∧
  (∀ (s t : State) (op : HostOp), perform op s = .next t → t.status = s.status ∨ t.status ≠ .decodeError) ∧
  (∀ (s t : State) (i : Instr), i ≠ .nop → exec i s = .next t → t.status ≠ .decodeError) ∧
  (∀ (s t : State) (op : HostOp), perform op s = .next t → op ≠ .reset → (∀ d, op ≠ .regWr 0#5 d) →
    t.status = s.status)

/-- R124: without a grid, EMBED and CHECK raise CAPACITY_ERROR, EXTRACT and DECLEN raise FORMAT_ERROR, and GETPIX, SETPIX,
MAP, WRBIT and RDBIT raise INDEX_ERROR. -/
def Obligations.CommandsWithoutAGridRaiseTheirErrors : Prop :=
  ∀ (s : State), s.width = 0 → s.height = 0 →
    (∀ i : Instr, i = .embed ∨ i = .check → ∃ t, exec i s = .next t ∧ t.status = .capacityError) ∧
    (∀ i : Instr, i = .extract ∨ i = .declen → ∃ t, exec i s = .next t ∧ t.status = .formatError) ∧
    (∀ i : Instr, i = .getpix ∨ i = .setpix ∨ i = .map ∨ i = .wrbit ∨ i = .rdbit →
      ∃ t, exec i s = .next t ∧ t.status = .indexError)
end

