-- ==== Sys2Proof/Laws/State.lean ====
section
/-! SUPPORT. What each update of the state leaves in each field, so that no proof unfolds a record update. -/

namespace Sys2Proof.Machine.State

@[simp] theorem setStatus_status (s : State) (c : StatusCode) : (s.setStatus c).status = c := rfl
@[simp] theorem setStatus_config (s : State) (c : StatusCode) : (s.setStatus c).config = s.config := rfl
@[simp] theorem setStatus_width (s : State) (c : StatusCode) : (s.setStatus c).width = s.width := rfl
@[simp] theorem setStatus_height (s : State) (c : StatusCode) : (s.setStatus c).height = s.height := rfl
@[simp] theorem setStatus_payLen (s : State) (c : StatusCode) : (s.setStatus c).payLen = s.payLen := rfl
@[simp] theorem setStatus_lenOut (s : State) (c : StatusCode) : (s.setStatus c).lenOut = s.lenOut := rfl
@[simp] theorem setStatus_needBits (s : State) (c : StatusCode) : (s.setStatus c).needBits = s.needBits := rfl
@[simp] theorem setStatus_availBits (s : State) (c : StatusCode) : (s.setStatus c).availBits = s.availBits := rfl
@[simp] theorem setStatus_argK (s : State) (c : StatusCode) : (s.setStatus c).argK = s.argK := rfl
@[simp] theorem setStatus_bitIo (s : State) (c : StatusCode) : (s.setStatus c).bitIo = s.bitIo := rfl
@[simp] theorem setStatus_argX (s : State) (c : StatusCode) : (s.setStatus c).argX = s.argX := rfl
@[simp] theorem setStatus_argY (s : State) (c : StatusCode) : (s.setStatus c).argY = s.argY := rfl
@[simp] theorem setStatus_pixData (s : State) (c : StatusCode) : (s.setStatus c).pixData = s.pixData := rfl
@[simp] theorem setStatus_mapX (s : State) (c : StatusCode) : (s.setStatus c).mapX = s.mapX := rfl
@[simp] theorem setStatus_mapY (s : State) (c : StatusCode) : (s.setStatus c).mapY = s.mapY := rfl
@[simp] theorem setStatus_mapCh (s : State) (c : StatusCode) : (s.setStatus c).mapCh = s.mapCh := rfl
@[simp] theorem setStatus_mapBit (s : State) (c : StatusCode) : (s.setStatus c).mapBit = s.mapBit := rfl
@[simp] theorem setStatus_grid (s : State) (c : StatusCode) : (s.setStatus c).grid = s.grid := rfl
@[simp] theorem setStatus_payload (s : State) (c : StatusCode) : (s.setStatus c).payload = s.payload := rfl
@[simp] theorem setStatus_dimBits (s : State) (c : StatusCode) : (s.setStatus c).dimBits = s.dimBits := rfl
@[simp] theorem setStatus_pending (s : State) (c : StatusCode) : (s.setStatus c).pending = s.pending := rfl
@[simp] theorem setStatus_replies (s : State) (c : StatusCode) : (s.setStatus c).replies = s.replies := rfl

@[simp] theorem setLenOut_status (s : State) (v : BitVec 32) : (s.setLenOut v).status = s.status := rfl
@[simp] theorem setLenOut_config (s : State) (v : BitVec 32) : (s.setLenOut v).config = s.config := rfl
@[simp] theorem setLenOut_width (s : State) (v : BitVec 32) : (s.setLenOut v).width = s.width := rfl
@[simp] theorem setLenOut_height (s : State) (v : BitVec 32) : (s.setLenOut v).height = s.height := rfl
@[simp] theorem setLenOut_payLen (s : State) (v : BitVec 32) : (s.setLenOut v).payLen = s.payLen := rfl
@[simp] theorem setLenOut_lenOut (s : State) (v : BitVec 32) : (s.setLenOut v).lenOut = v := rfl
@[simp] theorem setLenOut_needBits (s : State) (v : BitVec 32) : (s.setLenOut v).needBits = s.needBits := rfl
@[simp] theorem setLenOut_availBits (s : State) (v : BitVec 32) : (s.setLenOut v).availBits = s.availBits := rfl
@[simp] theorem setLenOut_argK (s : State) (v : BitVec 32) : (s.setLenOut v).argK = s.argK := rfl
@[simp] theorem setLenOut_bitIo (s : State) (v : BitVec 32) : (s.setLenOut v).bitIo = s.bitIo := rfl
@[simp] theorem setLenOut_argX (s : State) (v : BitVec 32) : (s.setLenOut v).argX = s.argX := rfl
@[simp] theorem setLenOut_argY (s : State) (v : BitVec 32) : (s.setLenOut v).argY = s.argY := rfl
@[simp] theorem setLenOut_pixData (s : State) (v : BitVec 32) : (s.setLenOut v).pixData = s.pixData := rfl
@[simp] theorem setLenOut_mapX (s : State) (v : BitVec 32) : (s.setLenOut v).mapX = s.mapX := rfl
@[simp] theorem setLenOut_mapY (s : State) (v : BitVec 32) : (s.setLenOut v).mapY = s.mapY := rfl
@[simp] theorem setLenOut_mapCh (s : State) (v : BitVec 32) : (s.setLenOut v).mapCh = s.mapCh := rfl
@[simp] theorem setLenOut_mapBit (s : State) (v : BitVec 32) : (s.setLenOut v).mapBit = s.mapBit := rfl
@[simp] theorem setLenOut_grid (s : State) (v : BitVec 32) : (s.setLenOut v).grid = s.grid := rfl
@[simp] theorem setLenOut_payload (s : State) (v : BitVec 32) : (s.setLenOut v).payload = s.payload := rfl
@[simp] theorem setLenOut_dimBits (s : State) (v : BitVec 32) : (s.setLenOut v).dimBits = s.dimBits := rfl
@[simp] theorem setLenOut_pending (s : State) (v : BitVec 32) : (s.setLenOut v).pending = s.pending := rfl
@[simp] theorem setLenOut_replies (s : State) (v : BitVec 32) : (s.setLenOut v).replies = s.replies := rfl

@[simp] theorem setReport_status (s : State) (n : BitVec 64) (v : BitVec 64) : (s.setReport n v).status = s.status := rfl
@[simp] theorem setReport_config (s : State) (n : BitVec 64) (v : BitVec 64) : (s.setReport n v).config = s.config := rfl
@[simp] theorem setReport_width (s : State) (n : BitVec 64) (v : BitVec 64) : (s.setReport n v).width = s.width := rfl
@[simp] theorem setReport_height (s : State) (n : BitVec 64) (v : BitVec 64) : (s.setReport n v).height = s.height := rfl
@[simp] theorem setReport_payLen (s : State) (n : BitVec 64) (v : BitVec 64) : (s.setReport n v).payLen = s.payLen := rfl
@[simp] theorem setReport_lenOut (s : State) (n : BitVec 64) (v : BitVec 64) : (s.setReport n v).lenOut = s.lenOut := rfl
@[simp] theorem setReport_needBits (s : State) (n : BitVec 64) (v : BitVec 64) : (s.setReport n v).needBits = n := rfl
@[simp] theorem setReport_availBits (s : State) (n : BitVec 64) (v : BitVec 64) : (s.setReport n v).availBits = v := rfl
@[simp] theorem setReport_argK (s : State) (n : BitVec 64) (v : BitVec 64) : (s.setReport n v).argK = s.argK := rfl
@[simp] theorem setReport_bitIo (s : State) (n : BitVec 64) (v : BitVec 64) : (s.setReport n v).bitIo = s.bitIo := rfl
@[simp] theorem setReport_argX (s : State) (n : BitVec 64) (v : BitVec 64) : (s.setReport n v).argX = s.argX := rfl
@[simp] theorem setReport_argY (s : State) (n : BitVec 64) (v : BitVec 64) : (s.setReport n v).argY = s.argY := rfl
@[simp] theorem setReport_pixData (s : State) (n : BitVec 64) (v : BitVec 64) : (s.setReport n v).pixData = s.pixData := rfl
@[simp] theorem setReport_mapX (s : State) (n : BitVec 64) (v : BitVec 64) : (s.setReport n v).mapX = s.mapX := rfl
@[simp] theorem setReport_mapY (s : State) (n : BitVec 64) (v : BitVec 64) : (s.setReport n v).mapY = s.mapY := rfl
@[simp] theorem setReport_mapCh (s : State) (n : BitVec 64) (v : BitVec 64) : (s.setReport n v).mapCh = s.mapCh := rfl
@[simp] theorem setReport_mapBit (s : State) (n : BitVec 64) (v : BitVec 64) : (s.setReport n v).mapBit = s.mapBit := rfl
@[simp] theorem setReport_grid (s : State) (n : BitVec 64) (v : BitVec 64) : (s.setReport n v).grid = s.grid := rfl
@[simp] theorem setReport_payload (s : State) (n : BitVec 64) (v : BitVec 64) : (s.setReport n v).payload = s.payload := rfl
@[simp] theorem setReport_dimBits (s : State) (n : BitVec 64) (v : BitVec 64) : (s.setReport n v).dimBits = s.dimBits := rfl
@[simp] theorem setReport_pending (s : State) (n : BitVec 64) (v : BitVec 64) : (s.setReport n v).pending = s.pending := rfl
@[simp] theorem setReport_replies (s : State) (n : BitVec 64) (v : BitVec 64) : (s.setReport n v).replies = s.replies := rfl

@[simp] theorem setBitIo_status (s : State) (v : BitVec 1) : (s.setBitIo v).status = s.status := rfl
@[simp] theorem setBitIo_config (s : State) (v : BitVec 1) : (s.setBitIo v).config = s.config := rfl
@[simp] theorem setBitIo_width (s : State) (v : BitVec 1) : (s.setBitIo v).width = s.width := rfl
@[simp] theorem setBitIo_height (s : State) (v : BitVec 1) : (s.setBitIo v).height = s.height := rfl
@[simp] theorem setBitIo_payLen (s : State) (v : BitVec 1) : (s.setBitIo v).payLen = s.payLen := rfl
@[simp] theorem setBitIo_lenOut (s : State) (v : BitVec 1) : (s.setBitIo v).lenOut = s.lenOut := rfl
@[simp] theorem setBitIo_needBits (s : State) (v : BitVec 1) : (s.setBitIo v).needBits = s.needBits := rfl
@[simp] theorem setBitIo_availBits (s : State) (v : BitVec 1) : (s.setBitIo v).availBits = s.availBits := rfl
@[simp] theorem setBitIo_argK (s : State) (v : BitVec 1) : (s.setBitIo v).argK = s.argK := rfl
@[simp] theorem setBitIo_bitIo (s : State) (v : BitVec 1) : (s.setBitIo v).bitIo = v := rfl
@[simp] theorem setBitIo_argX (s : State) (v : BitVec 1) : (s.setBitIo v).argX = s.argX := rfl
@[simp] theorem setBitIo_argY (s : State) (v : BitVec 1) : (s.setBitIo v).argY = s.argY := rfl
@[simp] theorem setBitIo_pixData (s : State) (v : BitVec 1) : (s.setBitIo v).pixData = s.pixData := rfl
@[simp] theorem setBitIo_mapX (s : State) (v : BitVec 1) : (s.setBitIo v).mapX = s.mapX := rfl
@[simp] theorem setBitIo_mapY (s : State) (v : BitVec 1) : (s.setBitIo v).mapY = s.mapY := rfl
@[simp] theorem setBitIo_mapCh (s : State) (v : BitVec 1) : (s.setBitIo v).mapCh = s.mapCh := rfl
@[simp] theorem setBitIo_mapBit (s : State) (v : BitVec 1) : (s.setBitIo v).mapBit = s.mapBit := rfl
@[simp] theorem setBitIo_grid (s : State) (v : BitVec 1) : (s.setBitIo v).grid = s.grid := rfl
@[simp] theorem setBitIo_payload (s : State) (v : BitVec 1) : (s.setBitIo v).payload = s.payload := rfl
@[simp] theorem setBitIo_dimBits (s : State) (v : BitVec 1) : (s.setBitIo v).dimBits = s.dimBits := rfl
@[simp] theorem setBitIo_pending (s : State) (v : BitVec 1) : (s.setBitIo v).pending = s.pending := rfl
@[simp] theorem setBitIo_replies (s : State) (v : BitVec 1) : (s.setBitIo v).replies = s.replies := rfl

@[simp] theorem setPixData_status (s : State) (v : BitVec 32) : (s.setPixData v).status = s.status := rfl
@[simp] theorem setPixData_config (s : State) (v : BitVec 32) : (s.setPixData v).config = s.config := rfl
@[simp] theorem setPixData_width (s : State) (v : BitVec 32) : (s.setPixData v).width = s.width := rfl
@[simp] theorem setPixData_height (s : State) (v : BitVec 32) : (s.setPixData v).height = s.height := rfl
@[simp] theorem setPixData_payLen (s : State) (v : BitVec 32) : (s.setPixData v).payLen = s.payLen := rfl
@[simp] theorem setPixData_lenOut (s : State) (v : BitVec 32) : (s.setPixData v).lenOut = s.lenOut := rfl
@[simp] theorem setPixData_needBits (s : State) (v : BitVec 32) : (s.setPixData v).needBits = s.needBits := rfl
@[simp] theorem setPixData_availBits (s : State) (v : BitVec 32) : (s.setPixData v).availBits = s.availBits := rfl
@[simp] theorem setPixData_argK (s : State) (v : BitVec 32) : (s.setPixData v).argK = s.argK := rfl
@[simp] theorem setPixData_bitIo (s : State) (v : BitVec 32) : (s.setPixData v).bitIo = s.bitIo := rfl
@[simp] theorem setPixData_argX (s : State) (v : BitVec 32) : (s.setPixData v).argX = s.argX := rfl
@[simp] theorem setPixData_argY (s : State) (v : BitVec 32) : (s.setPixData v).argY = s.argY := rfl
@[simp] theorem setPixData_pixData (s : State) (v : BitVec 32) : (s.setPixData v).pixData = v := rfl
@[simp] theorem setPixData_mapX (s : State) (v : BitVec 32) : (s.setPixData v).mapX = s.mapX := rfl
@[simp] theorem setPixData_mapY (s : State) (v : BitVec 32) : (s.setPixData v).mapY = s.mapY := rfl
@[simp] theorem setPixData_mapCh (s : State) (v : BitVec 32) : (s.setPixData v).mapCh = s.mapCh := rfl
@[simp] theorem setPixData_mapBit (s : State) (v : BitVec 32) : (s.setPixData v).mapBit = s.mapBit := rfl
@[simp] theorem setPixData_grid (s : State) (v : BitVec 32) : (s.setPixData v).grid = s.grid := rfl
@[simp] theorem setPixData_payload (s : State) (v : BitVec 32) : (s.setPixData v).payload = s.payload := rfl
@[simp] theorem setPixData_dimBits (s : State) (v : BitVec 32) : (s.setPixData v).dimBits = s.dimBits := rfl
@[simp] theorem setPixData_pending (s : State) (v : BitVec 32) : (s.setPixData v).pending = s.pending := rfl
@[simp] theorem setPixData_replies (s : State) (v : BitVec 32) : (s.setPixData v).replies = s.replies := rfl

@[simp] theorem setMapOut_status (s : State) (x : Dim) (y : Dim) (c : BitVec 2) (i : BitVec 3) : (s.setMapOut x y c i).status = s.status := rfl
@[simp] theorem setMapOut_config (s : State) (x : Dim) (y : Dim) (c : BitVec 2) (i : BitVec 3) : (s.setMapOut x y c i).config = s.config := rfl
@[simp] theorem setMapOut_width (s : State) (x : Dim) (y : Dim) (c : BitVec 2) (i : BitVec 3) : (s.setMapOut x y c i).width = s.width := rfl
@[simp] theorem setMapOut_height (s : State) (x : Dim) (y : Dim) (c : BitVec 2) (i : BitVec 3) : (s.setMapOut x y c i).height = s.height := rfl
@[simp] theorem setMapOut_payLen (s : State) (x : Dim) (y : Dim) (c : BitVec 2) (i : BitVec 3) : (s.setMapOut x y c i).payLen = s.payLen := rfl
@[simp] theorem setMapOut_lenOut (s : State) (x : Dim) (y : Dim) (c : BitVec 2) (i : BitVec 3) : (s.setMapOut x y c i).lenOut = s.lenOut := rfl
@[simp] theorem setMapOut_needBits (s : State) (x : Dim) (y : Dim) (c : BitVec 2) (i : BitVec 3) : (s.setMapOut x y c i).needBits = s.needBits := rfl
@[simp] theorem setMapOut_availBits (s : State) (x : Dim) (y : Dim) (c : BitVec 2) (i : BitVec 3) : (s.setMapOut x y c i).availBits = s.availBits := rfl
@[simp] theorem setMapOut_argK (s : State) (x : Dim) (y : Dim) (c : BitVec 2) (i : BitVec 3) : (s.setMapOut x y c i).argK = s.argK := rfl
@[simp] theorem setMapOut_bitIo (s : State) (x : Dim) (y : Dim) (c : BitVec 2) (i : BitVec 3) : (s.setMapOut x y c i).bitIo = s.bitIo := rfl
@[simp] theorem setMapOut_argX (s : State) (x : Dim) (y : Dim) (c : BitVec 2) (i : BitVec 3) : (s.setMapOut x y c i).argX = s.argX := rfl
@[simp] theorem setMapOut_argY (s : State) (x : Dim) (y : Dim) (c : BitVec 2) (i : BitVec 3) : (s.setMapOut x y c i).argY = s.argY := rfl
@[simp] theorem setMapOut_pixData (s : State) (x : Dim) (y : Dim) (c : BitVec 2) (i : BitVec 3) : (s.setMapOut x y c i).pixData = s.pixData := rfl
@[simp] theorem setMapOut_mapX (s : State) (x : Dim) (y : Dim) (c : BitVec 2) (i : BitVec 3) : (s.setMapOut x y c i).mapX = x := rfl
@[simp] theorem setMapOut_mapY (s : State) (x : Dim) (y : Dim) (c : BitVec 2) (i : BitVec 3) : (s.setMapOut x y c i).mapY = y := rfl
@[simp] theorem setMapOut_mapCh (s : State) (x : Dim) (y : Dim) (c : BitVec 2) (i : BitVec 3) : (s.setMapOut x y c i).mapCh = c := rfl
@[simp] theorem setMapOut_mapBit (s : State) (x : Dim) (y : Dim) (c : BitVec 2) (i : BitVec 3) : (s.setMapOut x y c i).mapBit = i := rfl
@[simp] theorem setMapOut_grid (s : State) (x : Dim) (y : Dim) (c : BitVec 2) (i : BitVec 3) : (s.setMapOut x y c i).grid = s.grid := rfl
@[simp] theorem setMapOut_payload (s : State) (x : Dim) (y : Dim) (c : BitVec 2) (i : BitVec 3) : (s.setMapOut x y c i).payload = s.payload := rfl
@[simp] theorem setMapOut_dimBits (s : State) (x : Dim) (y : Dim) (c : BitVec 2) (i : BitVec 3) : (s.setMapOut x y c i).dimBits = s.dimBits := rfl
@[simp] theorem setMapOut_pending (s : State) (x : Dim) (y : Dim) (c : BitVec 2) (i : BitVec 3) : (s.setMapOut x y c i).pending = s.pending := rfl
@[simp] theorem setMapOut_replies (s : State) (x : Dim) (y : Dim) (c : BitVec 2) (i : BitVec 3) : (s.setMapOut x y c i).replies = s.replies := rfl

@[simp] theorem setGrid_status (s : State) (g : List Pixel) : (s.setGrid g).status = s.status := rfl
@[simp] theorem setGrid_config (s : State) (g : List Pixel) : (s.setGrid g).config = s.config := rfl
@[simp] theorem setGrid_width (s : State) (g : List Pixel) : (s.setGrid g).width = s.width := rfl
@[simp] theorem setGrid_height (s : State) (g : List Pixel) : (s.setGrid g).height = s.height := rfl
@[simp] theorem setGrid_payLen (s : State) (g : List Pixel) : (s.setGrid g).payLen = s.payLen := rfl
@[simp] theorem setGrid_lenOut (s : State) (g : List Pixel) : (s.setGrid g).lenOut = s.lenOut := rfl
@[simp] theorem setGrid_needBits (s : State) (g : List Pixel) : (s.setGrid g).needBits = s.needBits := rfl
@[simp] theorem setGrid_availBits (s : State) (g : List Pixel) : (s.setGrid g).availBits = s.availBits := rfl
@[simp] theorem setGrid_argK (s : State) (g : List Pixel) : (s.setGrid g).argK = s.argK := rfl
@[simp] theorem setGrid_bitIo (s : State) (g : List Pixel) : (s.setGrid g).bitIo = s.bitIo := rfl
@[simp] theorem setGrid_argX (s : State) (g : List Pixel) : (s.setGrid g).argX = s.argX := rfl
@[simp] theorem setGrid_argY (s : State) (g : List Pixel) : (s.setGrid g).argY = s.argY := rfl
@[simp] theorem setGrid_pixData (s : State) (g : List Pixel) : (s.setGrid g).pixData = s.pixData := rfl
@[simp] theorem setGrid_mapX (s : State) (g : List Pixel) : (s.setGrid g).mapX = s.mapX := rfl
@[simp] theorem setGrid_mapY (s : State) (g : List Pixel) : (s.setGrid g).mapY = s.mapY := rfl
@[simp] theorem setGrid_mapCh (s : State) (g : List Pixel) : (s.setGrid g).mapCh = s.mapCh := rfl
@[simp] theorem setGrid_mapBit (s : State) (g : List Pixel) : (s.setGrid g).mapBit = s.mapBit := rfl
@[simp] theorem setGrid_grid (s : State) (g : List Pixel) : (s.setGrid g).grid = g := rfl
@[simp] theorem setGrid_payload (s : State) (g : List Pixel) : (s.setGrid g).payload = s.payload := rfl
@[simp] theorem setGrid_dimBits (s : State) (g : List Pixel) : (s.setGrid g).dimBits = s.dimBits := rfl
@[simp] theorem setGrid_pending (s : State) (g : List Pixel) : (s.setGrid g).pending = s.pending := rfl
@[simp] theorem setGrid_replies (s : State) (g : List Pixel) : (s.setGrid g).replies = s.replies := rfl

@[simp] theorem setPayload_status (s : State) (m : List Host.Cell) : (s.setPayload m).status = s.status := rfl
@[simp] theorem setPayload_config (s : State) (m : List Host.Cell) : (s.setPayload m).config = s.config := rfl
@[simp] theorem setPayload_width (s : State) (m : List Host.Cell) : (s.setPayload m).width = s.width := rfl
@[simp] theorem setPayload_height (s : State) (m : List Host.Cell) : (s.setPayload m).height = s.height := rfl
@[simp] theorem setPayload_payLen (s : State) (m : List Host.Cell) : (s.setPayload m).payLen = s.payLen := rfl
@[simp] theorem setPayload_lenOut (s : State) (m : List Host.Cell) : (s.setPayload m).lenOut = s.lenOut := rfl
@[simp] theorem setPayload_needBits (s : State) (m : List Host.Cell) : (s.setPayload m).needBits = s.needBits := rfl
@[simp] theorem setPayload_availBits (s : State) (m : List Host.Cell) : (s.setPayload m).availBits = s.availBits := rfl
@[simp] theorem setPayload_argK (s : State) (m : List Host.Cell) : (s.setPayload m).argK = s.argK := rfl
@[simp] theorem setPayload_bitIo (s : State) (m : List Host.Cell) : (s.setPayload m).bitIo = s.bitIo := rfl
@[simp] theorem setPayload_argX (s : State) (m : List Host.Cell) : (s.setPayload m).argX = s.argX := rfl
@[simp] theorem setPayload_argY (s : State) (m : List Host.Cell) : (s.setPayload m).argY = s.argY := rfl
@[simp] theorem setPayload_pixData (s : State) (m : List Host.Cell) : (s.setPayload m).pixData = s.pixData := rfl
@[simp] theorem setPayload_mapX (s : State) (m : List Host.Cell) : (s.setPayload m).mapX = s.mapX := rfl
@[simp] theorem setPayload_mapY (s : State) (m : List Host.Cell) : (s.setPayload m).mapY = s.mapY := rfl
@[simp] theorem setPayload_mapCh (s : State) (m : List Host.Cell) : (s.setPayload m).mapCh = s.mapCh := rfl
@[simp] theorem setPayload_mapBit (s : State) (m : List Host.Cell) : (s.setPayload m).mapBit = s.mapBit := rfl
@[simp] theorem setPayload_grid (s : State) (m : List Host.Cell) : (s.setPayload m).grid = s.grid := rfl
@[simp] theorem setPayload_payload (s : State) (m : List Host.Cell) : (s.setPayload m).payload = m := rfl
@[simp] theorem setPayload_dimBits (s : State) (m : List Host.Cell) : (s.setPayload m).dimBits = s.dimBits := rfl
@[simp] theorem setPayload_pending (s : State) (m : List Host.Cell) : (s.setPayload m).pending = s.pending := rfl
@[simp] theorem setPayload_replies (s : State) (m : List Host.Cell) : (s.setPayload m).replies = s.replies := rfl

@[simp] theorem setPending_status (s : State) (l : List HostOp) : (s.setPending l).status = s.status := rfl
@[simp] theorem setPending_config (s : State) (l : List HostOp) : (s.setPending l).config = s.config := rfl
@[simp] theorem setPending_width (s : State) (l : List HostOp) : (s.setPending l).width = s.width := rfl
@[simp] theorem setPending_height (s : State) (l : List HostOp) : (s.setPending l).height = s.height := rfl
@[simp] theorem setPending_payLen (s : State) (l : List HostOp) : (s.setPending l).payLen = s.payLen := rfl
@[simp] theorem setPending_lenOut (s : State) (l : List HostOp) : (s.setPending l).lenOut = s.lenOut := rfl
@[simp] theorem setPending_needBits (s : State) (l : List HostOp) : (s.setPending l).needBits = s.needBits := rfl
@[simp] theorem setPending_availBits (s : State) (l : List HostOp) : (s.setPending l).availBits = s.availBits := rfl
@[simp] theorem setPending_argK (s : State) (l : List HostOp) : (s.setPending l).argK = s.argK := rfl
@[simp] theorem setPending_bitIo (s : State) (l : List HostOp) : (s.setPending l).bitIo = s.bitIo := rfl
@[simp] theorem setPending_argX (s : State) (l : List HostOp) : (s.setPending l).argX = s.argX := rfl
@[simp] theorem setPending_argY (s : State) (l : List HostOp) : (s.setPending l).argY = s.argY := rfl
@[simp] theorem setPending_pixData (s : State) (l : List HostOp) : (s.setPending l).pixData = s.pixData := rfl
@[simp] theorem setPending_mapX (s : State) (l : List HostOp) : (s.setPending l).mapX = s.mapX := rfl
@[simp] theorem setPending_mapY (s : State) (l : List HostOp) : (s.setPending l).mapY = s.mapY := rfl
@[simp] theorem setPending_mapCh (s : State) (l : List HostOp) : (s.setPending l).mapCh = s.mapCh := rfl
@[simp] theorem setPending_mapBit (s : State) (l : List HostOp) : (s.setPending l).mapBit = s.mapBit := rfl
@[simp] theorem setPending_grid (s : State) (l : List HostOp) : (s.setPending l).grid = s.grid := rfl
@[simp] theorem setPending_payload (s : State) (l : List HostOp) : (s.setPending l).payload = s.payload := rfl
@[simp] theorem setPending_dimBits (s : State) (l : List HostOp) : (s.setPending l).dimBits = s.dimBits := rfl
@[simp] theorem setPending_pending (s : State) (l : List HostOp) : (s.setPending l).pending = l := rfl
@[simp] theorem setPending_replies (s : State) (l : List HostOp) : (s.setPending l).replies = s.replies := rfl

@[simp] theorem addReply_status (s : State) (r : Reply) : (s.addReply r).status = s.status := rfl
@[simp] theorem addReply_config (s : State) (r : Reply) : (s.addReply r).config = s.config := rfl
@[simp] theorem addReply_width (s : State) (r : Reply) : (s.addReply r).width = s.width := rfl
@[simp] theorem addReply_height (s : State) (r : Reply) : (s.addReply r).height = s.height := rfl
@[simp] theorem addReply_payLen (s : State) (r : Reply) : (s.addReply r).payLen = s.payLen := rfl
@[simp] theorem addReply_lenOut (s : State) (r : Reply) : (s.addReply r).lenOut = s.lenOut := rfl
@[simp] theorem addReply_needBits (s : State) (r : Reply) : (s.addReply r).needBits = s.needBits := rfl
@[simp] theorem addReply_availBits (s : State) (r : Reply) : (s.addReply r).availBits = s.availBits := rfl
@[simp] theorem addReply_argK (s : State) (r : Reply) : (s.addReply r).argK = s.argK := rfl
@[simp] theorem addReply_bitIo (s : State) (r : Reply) : (s.addReply r).bitIo = s.bitIo := rfl
@[simp] theorem addReply_argX (s : State) (r : Reply) : (s.addReply r).argX = s.argX := rfl
@[simp] theorem addReply_argY (s : State) (r : Reply) : (s.addReply r).argY = s.argY := rfl
@[simp] theorem addReply_pixData (s : State) (r : Reply) : (s.addReply r).pixData = s.pixData := rfl
@[simp] theorem addReply_mapX (s : State) (r : Reply) : (s.addReply r).mapX = s.mapX := rfl
@[simp] theorem addReply_mapY (s : State) (r : Reply) : (s.addReply r).mapY = s.mapY := rfl
@[simp] theorem addReply_mapCh (s : State) (r : Reply) : (s.addReply r).mapCh = s.mapCh := rfl
@[simp] theorem addReply_mapBit (s : State) (r : Reply) : (s.addReply r).mapBit = s.mapBit := rfl
@[simp] theorem addReply_grid (s : State) (r : Reply) : (s.addReply r).grid = s.grid := rfl
@[simp] theorem addReply_payload (s : State) (r : Reply) : (s.addReply r).payload = s.payload := rfl
@[simp] theorem addReply_dimBits (s : State) (r : Reply) : (s.addReply r).dimBits = s.dimBits := rfl
@[simp] theorem addReply_pending (s : State) (r : Reply) : (s.addReply r).pending = s.pending := rfl
@[simp] theorem addReply_replies (s : State) (r : Reply) : (s.addReply r).replies = s.replies ++ [r] := rfl

end Sys2Proof.Machine.State
end

