-- ==== Sys2Proof/Laws/Memory.lean ====
section
/-!
SUPPORT. The two memories: what a read gives after a write, that every operation keeps the canonical form of the payload
memory and the size of the pixel memory, and what the range operations do.
-/

namespace Sys2Proof.Machine

/-! ## Payload memory -/

theorem memRead_memWrite (m : List Host.Cell) (a b : Nat) (v : Byte) :
    memRead (memWrite m a v) b = if b = a then some v else memRead m b := by
  induction m with
  | nil => simp [memWrite, memRead, eq_comm]
  | cons c m ih =>
    obtain ⟨k, w⟩ := c
    rcases Nat.lt_trichotomy a k with h | h | h
    · simp [memWrite, memRead, h, eq_comm]
    · subst h; simp [memWrite, memRead]; split <;> simp_all [eq_comm]
    · have h1 : ¬ a < k := by omega
      have h2 : a ≠ k := by omega
      simp only [memWrite, h1, h2, if_false, memRead, ih]
      by_cases hb : b = a
      · subst hb; simp [h2.symm]
      · simp [hb]

/-- The addresses of a written memory are those of the memory and the one written. -/
theorem memWrite_keys {m : List Host.Cell} {a : Nat} {v : Byte} {c : Host.Cell} (h : c ∈ memWrite m a v) :
    c = (a, v) ∨ c ∈ m := by
  induction m with
  | nil => simpa [memWrite] using h
  | cons d m ih =>
    obtain ⟨k, w⟩ := d
    simp only [memWrite] at h
    split at h
    · simpa using h
    · split at h
      · rcases List.mem_cons.1 h with h | h
        · exact .inl h
        · exact .inr (List.mem_cons_of_mem _ h)
      · rcases List.mem_cons.1 h with h | h
        · exact .inr (h ▸ List.mem_cons_self)
        · exact (ih h).imp id (List.mem_cons_of_mem _)

theorem memWrite_wf {m : List Host.Cell} (hm : Memory.wf m) {a : Nat} (ha : a < 2 ^ 32) (v : Byte) :
    Memory.wf (memWrite m a v) := by
  refine ⟨?_, fun c hc => ?_⟩
  · obtain ⟨hp, -⟩ := hm
    induction m with
    | nil => simp [memWrite]
    | cons d m ih =>
      obtain ⟨k, w⟩ := d
      obtain ⟨hk, hp⟩ := List.pairwise_cons.1 hp
      simp only [memWrite]
      split
      · rename_i hak
        refine List.pairwise_cons.2 ⟨fun c hc => ?_, List.pairwise_cons.2 ⟨hk, hp⟩⟩
        rcases List.mem_cons.1 hc with rfl | hc
        · exact hak
        · exact Nat.lt_trans hak (hk c hc)
      · split
        · rename_i hak
          exact List.pairwise_cons.2 ⟨fun c hc => by simpa [hak] using hk c hc, hp⟩
        · rename_i h1 h2
          refine List.pairwise_cons.2 ⟨fun c hc => ?_, ih hp⟩
          rcases memWrite_keys hc with rfl | hc
          · show k < a
            omega
          · exact hk c hc
  · rcases memWrite_keys hc with rfl | hc
    · exact ha
    · exact hm.2 c hc

theorem memory_wf_nil : Memory.wf [] := ⟨List.Pairwise.nil, by simp⟩

/-- Writing the byte a cell already holds changes nothing. -/
theorem memWrite_of_memRead {m : List Host.Cell} (hm : m.Pairwise (fun c d => c.1 < d.1)) {a : Nat} {v : Byte}
    (h : memRead m a = some v) : memWrite m a v = m := by
  induction m with
  | nil => simp [memRead] at h
  | cons d m ih =>
    obtain ⟨k, w⟩ := d
    obtain ⟨hk, hm⟩ := List.pairwise_cons.1 hm
    simp only [memRead] at h
    split at h
    · rename_i hka; subst hka; simp_all [memWrite]
    · rename_i hka
      have hlt : ¬ a < k := fun hlt => by
        have : ∀ l : List Host.Cell, (∀ c ∈ l, k < c.1) → memRead l a = none := by
          intro l hl
          induction l with
          | nil => rfl
          | cons e l ih' =>
            have := hl e List.mem_cons_self
            simp only [memRead]
            rw [if_neg (by omega)]
            exact ih' fun c hc => hl c (List.mem_cons_of_mem _ hc)
        simp [this m hk] at h
      simp [memWrite, hlt, Ne.symm hka, ih hm h]

theorem payRead_payWrite (s : State) (a b : Nat) (v : Byte) :
    payRead (payWrite a v s) b = if b = a then some v else payRead s b := by
  simp [payRead, payWrite, memRead_memWrite]

@[simp] theorem payRead_setStatus (s : State) (c : StatusCode) (a : Nat) : payRead (s.setStatus c) a = payRead s a := rfl
@[simp] theorem payRead_setGrid (s : State) (g : List Pixel) (a : Nat) : payRead (s.setGrid g) a = payRead s a := rfl
@[simp] theorem payRead_report (s : State) (n v a : Nat) : payRead (report n v s) a = payRead s a := rfl

/-- `payReadRange` gives the bytes of the range, in order, exactly when all of them are written. -/
theorem payReadRange_ok {s : State} {a n : Nat} {bytes : List Byte} :
    payReadRange s a n = .ok bytes ↔ bytes.length = n ∧ ∀ i < n, payRead s (a + i) = bytes[i]? := by
  induction n generalizing a bytes with
  | zero => cases bytes <;> simp [payReadRange]
  | succ n ih =>
    simp only [payReadRange]
    cases h0 : payRead s a with
    | none =>
      simp only [reduceCtorEq, false_iff, not_and]
      intro hl h
      have := h 0 (by omega)
      cases bytes <;> simp_all
    | some v =>
      simp only
      cases hr : payReadRange s (a + 1) n with
      | error e =>
        simp only [reduceCtorEq, false_iff, not_and]
        intro hl h
        cases bytes with
        | nil => simp at hl
        | cons w ws =>
          have : payReadRange s (a + 1) n = .ok ws := ih.2 ⟨by simpa using hl, fun i hi => by
            have := h (i + 1) (by omega)
            simpa [Nat.add_assoc, Nat.add_comm 1 i] using this⟩
          simp [hr] at this
      | ok vs =>
        obtain ⟨hl, hi⟩ := ih.1 hr
        simp only [Except.ok.injEq]
        constructor
        · rintro rfl
          refine ⟨by simp [hl], fun i hi' => ?_⟩
          cases i with
          | zero => simpa using h0
          | succ i => simpa [Nat.add_assoc, Nat.add_comm 1 i] using hi i (by omega)
        · rintro ⟨hl', h⟩
          cases bytes with
          | nil => simp at hl'
          | cons w ws =>
            have h0' := h 0 (by omega)
            have hvw : v = w := by simpa [h0] using h0'
            subst hvw
            congr 1
            apply List.ext_getElem?
            intro i
            by_cases hin : i < n
            · rw [← hi i hin]
              simpa [Nat.add_assoc, Nat.add_comm 1 i] using h (i + 1) (by omega)
            · rw [List.getElem?_eq_none (by omega), List.getElem?_eq_none (by simp at hl'; omega)]

/-- `payReadRange` stops at the first unwritten address of the range. -/
theorem payReadRange_error {s : State} {a n e : Nat} :
    payReadRange s a n = .error e ↔ ∃ i < n, e = a + i ∧ payRead s e = none ∧ ∀ j < i, payRead s (a + j) ≠ none := by
  induction n generalizing a with
  | zero => simp [payReadRange]
  | succ n ih =>
    simp only [payReadRange]
    cases h0 : payRead s a with
    | none =>
      simp only [Except.error.injEq]
      constructor
      · rintro rfl; exact ⟨0, by omega, by simp, h0, by simp⟩
      · rintro ⟨i, -, rfl, -, hj⟩
        cases i with
        | zero => rfl
        | succ i => exact absurd h0 (by simpa using hj 0 (by omega))
    | some v =>
      simp only
      cases hr : payReadRange s (a + 1) n with
      | error e' =>
        have ih' := @ih (a + 1)
        rw [hr] at ih'
        simp only [Except.error.injEq] at ih' ⊢
        rw [ih']
        constructor
        · rintro ⟨i, hi, rfl, hn, hj⟩
          refine ⟨i + 1, by omega, by omega, hn, fun j hj' => ?_⟩
          cases j with
          | zero => simp [h0]
          | succ j => simpa [Nat.add_assoc, Nat.add_comm 1 j] using hj j (by omega)
        · rintro ⟨i, hi, rfl, hn, hj⟩
          cases i with
          | zero => simp [h0] at hn
          | succ i =>
            refine ⟨i, by omega, by omega, hn, fun j hj' => ?_⟩
            simpa [Nat.add_assoc, Nat.add_comm 1 j] using hj (j + 1) (by omega)
      | ok vs =>
        obtain ⟨hl, hi⟩ := payReadRange_ok.1 hr
        simp only [reduceCtorEq, false_iff, not_exists, not_and]
        rintro i hi' rfl hn
        cases i with
        | zero => simp [h0] at hn
        | succ i =>
          have := hi i (by omega)
          rw [Nat.add_assoc, Nat.add_comm 1 i, hn, List.getElem?_eq_getElem (by omega)] at this
          simp at this

/-- A range write changes the payload memory only. -/
theorem payWriteRange_eq (a : Nat) (bytes : List Byte) (s : State) :
    payWriteRange a bytes s = s.setPayload (payWriteRange a bytes s).payload := by
  induction bytes generalizing a s with
  | nil => rfl
  | cons v vs ih => simp only [payWriteRange]; rw [ih]; rfl

theorem payRead_payWriteRange (a : Nat) (bytes : List Byte) (s : State) (b : Nat) :
    payRead (payWriteRange a bytes s) b =
      if a ≤ b ∧ b < a + bytes.length then bytes[b - a]? else payRead s b := by
  induction bytes generalizing a s with
  | nil => simp only [payWriteRange, List.length_nil, Nat.add_zero]; rw [if_neg (by omega)]
  | cons v vs ih =>
    simp only [payWriteRange, ih, payRead_payWrite, List.length_cons]
    rcases Nat.lt_trichotomy b a with h | h | h
    · rw [if_neg (by omega), if_neg (by omega), if_neg (by omega)]
    · subst h
      rw [if_neg (by omega), if_pos rfl, if_pos (by omega)]
      simp
    · obtain ⟨d, rfl⟩ : ∃ d, b = a + 1 + d := ⟨b - (a + 1), by omega⟩
      have e1 : a + 1 + d - (a + 1) = d := by omega
      have e2 : a + 1 + d - a = d + 1 := by omega
      by_cases hd : d < vs.length
      · rw [if_pos (by omega), if_pos (by omega), e1, e2, List.getElem?_cons_succ]
      · rw [if_neg (by omega), if_neg (by omega), if_neg (by omega)]

theorem payWriteRange_wf {s : State} (hs : Memory.wf s.payload) {a : Nat} {bytes : List Byte}
    (ha : a + bytes.length ≤ 2 ^ 32) : Memory.wf (payWriteRange a bytes s).payload := by
  induction bytes generalizing a s with
  | nil => exact hs
  | cons v vs ih =>
    have : a + (vs.length + 1) ≤ 2 ^ 32 := ha
    exact ih (s := payWrite a v s) (memWrite_wf hs (by omega) v) (a := a + 1) (by omega)

/-- Writing a range that already holds the bytes changes nothing. -/
theorem payWriteRange_of_payRead {s : State} (hs : s.payload.Pairwise (fun c d => c.1 < d.1)) {a : Nat}
    {bytes : List Byte} (h : ∀ i < bytes.length, payRead s (a + i) = bytes[i]?) : payWriteRange a bytes s = s := by
  induction bytes generalizing a with
  | nil => rfl
  | cons v vs ih =>
    have h0 : payRead s a = some v := by simpa using h 0 (by simp)
    have : payWrite a v s = s := by
      show s.setPayload (memWrite s.payload a v) = s
      rw [memWrite_of_memRead hs h0]; rfl
    simp only [payWriteRange, this]
    exact ih fun i hi => by
      have := h (i + 1) (by simpa using hi)
      simpa [Nat.add_assoc, Nat.add_comm 1 i] using this

/-! ## Pixel memory -/

@[simp] theorem pixelGet_pixelSet (p : Pixel) (c d : Channel) (v : Byte) :
    pixelGet (pixelSet p c v) d = if d = c then v else pixelGet p d := by
  cases c <;> cases d <;> simp [pixelGet, pixelSet]

theorem pixelSet_comm (p : Pixel) {c d : Channel} (h : c ≠ d) (v w : Byte) :
    pixelSet (pixelSet p c v) d w = pixelSet (pixelSet p d w) c v := by
  cases c <;> cases d <;> simp_all [pixelSet]

/-- Two coordinates inside a row of `w` pixels have one pixel index only if they are the same. -/
theorem rowMajor_inj {w x y x' y' : Nat} (hx : x < w) (hx' : x' < w) (h : y * w + x = y' * w + x') :
    x = x' ∧ y = y' := by
  have e1 : (y * w + x) % w = x := by rw [Nat.add_comm, Nat.add_mul_mod_self_right, Nat.mod_eq_of_lt hx]
  have e2 : (y' * w + x') % w = x' := by rw [Nat.add_comm, Nat.add_mul_mod_self_right, Nat.mod_eq_of_lt hx']
  have e3 : (y * w + x) / w = y := by
    rw [Nat.add_comm, Nat.add_mul_div_right _ _ (by omega), Nat.div_eq_of_lt hx, Nat.zero_add]
  have e4 : (y' * w + x') / w = y' := by
    rw [Nat.add_comm, Nat.add_mul_div_right _ _ (by omega), Nat.div_eq_of_lt hx', Nat.zero_add]
  exact ⟨by rw [← e1, ← e2, h], by rw [← e3, ← e4, h]⟩

/-- An in-range coordinate has its pixel inside a full grid. -/
theorem rowMajor_lt {w h x y : Nat} (hx : x < w) (hy : y < h) : y * w + x < w * h := by
  have : (y + 1) * w ≤ h * w := Nat.mul_le_mul_right w hy
  rw [Nat.mul_comm w h]
  rw [Nat.add_mul, Nat.one_mul] at this
  omega

theorem pixWrite_eq (x y : Nat) (c : Channel) (v : Byte) (s : State) :
    pixWrite x y c v s = s.setGrid (pixWrite x y c v s).grid := rfl

@[simp] theorem pixWrite_grid_length (x y : Nat) (c : Channel) (v : Byte) (s : State) :
    (pixWrite x y c v s).grid.length = s.grid.length := by simp [pixWrite]

@[simp] theorem pixWrite_width (x y : Nat) (c : Channel) (v : Byte) (s : State) :
    (pixWrite x y c v s).width = s.width := rfl

@[simp] theorem pixWrite_height (x y : Nat) (c : Channel) (v : Byte) (s : State) :
    (pixWrite x y c v s).height = s.height := rfl

/-- What a channel reads after a channel write, for any two coordinates: the value written exactly where pixel index and
channel agree and the pixel exists. -/
theorem pixRead_pixWrite (s : State) (x y x' y' : Nat) (c c' : Channel) (v : Byte) :
    pixRead (pixWrite x y c v s) x' y' c' =
      if pixelIndex s x' y' = pixelIndex s x y ∧ c' = c ∧ pixelIndex s x y < s.grid.length then v
      else pixRead s x' y' c' := by
  have hidx : pixelIndex (pixWrite x y c v s) x' y' = pixelIndex s x' y' := rfl
  have hgrid : (pixWrite x y c v s).grid = s.grid.modify (pixelIndex s x y) (fun p => pixelSet p c v) := rfl
  unfold pixRead
  rw [hidx, hgrid, List.getElem?_modify]
  by_cases hi : pixelIndex s x' y' = pixelIndex s x y
  · rw [hi]
    cases hg : s.grid[pixelIndex s x y]? with
    | none =>
      have : ¬ pixelIndex s x y < s.grid.length := by simpa using hg
      simp [this]
    | some p =>
      have : pixelIndex s x y < s.grid.length := by
        by_contra hn
        simp [List.getElem?_eq_none (Nat.le_of_not_lt hn)] at hg
      simp [this]
  · simp [hi, Ne.symm hi]

/-- The same for coordinates of a full grid. -/
theorem pixRead_pixWrite_inRange {s : State} (hg : s.grid.length = s.width.toNat * s.height.toNat) {x y x' y' : Nat}
    (hx : x < s.width.toNat) (hy : y < s.height.toNat) (hx' : x' < s.width.toNat) (c c' : Channel) (v : Byte) :
    pixRead (pixWrite x y c v s) x' y' c' = if x' = x ∧ y' = y ∧ c' = c then v else pixRead s x' y' c' := by
  rw [pixRead_pixWrite]
  have hlt : pixelIndex s x y < s.grid.length := hg ▸ rowMajor_lt hx hy
  by_cases h : pixelIndex s x' y' = pixelIndex s x y
  · obtain ⟨rfl, rfl⟩ := rowMajor_inj hx' hx h
    simp [hlt]
  · have : ¬ (x' = x ∧ y' = y) := fun ⟨h1, h2⟩ => h (by rw [h1, h2])
    simp only [h, false_and, if_false]
    rw [if_neg (fun ⟨h1, h2, _⟩ => this ⟨h1, h2⟩)]

theorem pixelsOfImage_length {img : List Byte} {n : Nat} (h : img.length = 4 * n) :
    (pixelsOfImage img).length = n := by
  induction n generalizing img with
  | zero => simp_all [pixelsOfImage]
  | succ n ih =>
    match img, h with
    | r :: g :: b :: a :: rest, h => simp [pixelsOfImage, ih (img := rest) (by simp at h; omega)]

theorem imageOfPixels_pixelsOfImage {img : List Byte} {n : Nat} (h : img.length = 4 * n) :
    imageOfPixels (pixelsOfImage img) = img := by
  induction n generalizing img with
  | zero => simp_all [pixelsOfImage, imageOfPixels]
  | succ n ih =>
    match img, h with
    | r :: g :: b :: a :: rest, h =>
      have := ih (img := rest) (by simp at h; omega)
      simp only [imageOfPixels] at this
      simp [pixelsOfImage, imageOfPixels, this]

theorem imageOfPixels_length (g : List Pixel) : (imageOfPixels g).length = 4 * g.length := by
  induction g with
  | nil => rfl
  | cons p g ih => simp only [imageOfPixels, List.flatMap_cons, List.length_append, List.length_cons,
      List.length_nil] at ih ⊢; omega

/-- Byte 4·p + c of the image is channel c of pixel p (R44). -/
theorem imageOfPixels_getElem? (g : List Pixel) (p : Nat) (c : Channel) :
    (imageOfPixels g)[4 * p + channelIndex c]? = g[p]?.map (fun q => pixelGet q c) := by
  induction g generalizing p with
  | nil => simp [imageOfPixels]
  | cons q g ih =>
    cases p with
    | zero => cases c <;> simp [imageOfPixels, channelIndex, pixelGet]
    | succ p =>
      have := ih p
      simp only [imageOfPixels] at this
      rw [show 4 * (p + 1) + channelIndex c = (4 * p + channelIndex c) + 1 + 1 + 1 + 1 by omega]
      simpa [imageOfPixels] using this

end Sys2Proof.Machine
end

