-- ==== Sys2Proof/Laws/Bits.lean ====
section
/-!
SUPPORT. Bit writer and reader, bitstreams and their numbers, the channel list, the traversal map, and what writing
carrier bits does.
-/

namespace Sys2Proof.Machine

/-! ## One byte -/

theorem rbit_eq_getLsbD (v : Byte) (i : Nat) : rbit v i = v.getLsbD i := by
  have h : (v >>> i &&& 1#8) = if v.getLsbD i then 1#8 else 0#8 := by
    apply BitVec.eq_of_getLsbD_eq
    intro j hj
    by_cases h0 : j = 0
    · subst h0; cases hv : v.getLsbD i <;> simp [hv]
    · cases hv : v.getLsbD i <;> simp [BitVec.getLsbD_one, h0]
  unfold rbit
  rw [h]
  cases v.getLsbD i <;> rfl

/-- Bit `j` of `wbit v i b` (R60). -/
theorem getLsbD_wbit (v : Byte) (i j : Nat) (b : Bool) (hi : i < 8) :
    (wbit v i b).getLsbD j = if j = i then b else v.getLsbD j := by
  by_cases hj : j < 8
  · by_cases hji : j = i
    · subst hji; cases b <;> simp [wbit, hj]
    · by_cases hlt : j < i
      · simp [wbit, hj, hji, hlt]
      · have : j - i ≠ 0 := by omega
        cases b <;> simp [wbit, hj, hji, hlt, this]
  · have hji : j ≠ i := by omega
    rw [BitVec.getLsbD_of_ge _ _ (by omega), BitVec.getLsbD_of_ge _ _ (by omega)]
    simp [hji]

theorem wbit_self (v : Byte) (i : Nat) (hi : i < 8) : wbit v i (v.getLsbD i) = v := by
  apply BitVec.eq_of_getLsbD_eq
  intro j _
  rw [getLsbD_wbit _ _ _ _ hi]
  split <;> simp_all

/-! ## Bitstreams -/

theorem bitsValue_append_one (bits : List Bool) (b : Bool) : bitsValue (bits ++ [b]) = 2 * bitsValue bits + b.toNat := by
  simp [bitsValue]

theorem bitsValue_lt (bits : List Bool) : bitsValue bits < 2 ^ bits.length := by
  induction bits using List.reverseRecOn with
  | nil => simp [bitsValue]
  | append_singleton bits b ih =>
    rw [bitsValue_append_one, List.length_append, List.length_singleton, Nat.pow_succ]
    cases b <;> simp <;> omega

theorem carrierBits_length (s : State) (k n : Nat) : (carrierBits s k n).length = n := by
  induction n generalizing k with
  | zero => rfl
  | succ n ih => simp [carrierBits, ih]

theorem carrierBits_getElem? (s : State) (k n i : Nat) (h : i < n) : (carrierBits s k n)[i]? = some (cbit s (k + i)) := by
  induction n generalizing k i with
  | zero => omega
  | succ n ih =>
    cases i with
    | zero => simp [carrierBits]
    | succ i =>
      rw [carrierBits, List.getElem?_cons_succ, ih (k + 1) i (by omega)]
      simp [Nat.add_assoc, Nat.add_comm 1 i]

theorem carrierBits_succ_end (s : State) (k n : Nat) :
    carrierBits s k (n + 1) = carrierBits s k n ++ [cbit s (k + n)] := by
  induction n generalizing k with
  | zero => rfl
  | succ n ih => rw [carrierBits, ih (k + 1), carrierBits, List.cons_append, Nat.add_assoc, Nat.add_comm 1 n]

/-- A run of carrier bits, most significant first, spells the sum of R62. -/
theorem bitsValue_carrierBits (s : State) (k n : Nat) :
    bitsValue (carrierBits s k n) = ∑ j ∈ Finset.range n, (cbit s (k + j)).toNat * 2 ^ (n - 1 - j) := by
  induction n with
  | zero => rfl
  | succ n ih =>
    rw [carrierBits_succ_end, bitsValue_append_one, ih, Finset.sum_range_succ, Finset.mul_sum]
    congr 1
    · apply Finset.sum_congr rfl
      intro j hj
      rw [Finset.mem_range] at hj
      obtain ⟨d, rfl⟩ : ∃ d, n = j + 1 + d := ⟨n - (j + 1), by omega⟩
      rw [show j + 1 + d - 1 - j = d by omega, show j + 1 + d + 1 - 1 - j = d + 1 by omega, Nat.pow_succ]
      ring
    · simp

/-- The bits of the number a run of carrier bits spells are those carrier bits, the first one the most significant. -/
theorem testBit_bitsValue_carrierBits (s : State) (k n j : Nat) (h : j < n) :
    (bitsValue (carrierBits s k n)).testBit (n - 1 - j) = cbit s (k + j) := by
  induction n with
  | zero => omega
  | succ n ih =>
    rw [carrierBits_succ_end, bitsValue_append_one]
    by_cases hj : j = n
    · subst hj
      rw [show j + 1 - 1 - j = 0 by omega]
      cases cbit s (k + j) <;> simp
    · rw [show n + 1 - 1 - j = n - 1 - j + 1 by omega, Nat.testBit_succ, ← ih (by omega)]
      congr 1
      have := Bool.toNat_lt (cbit s (k + n))
      omega

theorem getLsbD_declaredLength (s : State) (j : Nat) (h : j < 32) : (declaredLength s).getLsbD (31 - j) = cbit s j := by
  have := testBit_bitsValue_carrierBits s 0 32 j h
  rw [Nat.zero_add] at this
  rw [declaredLength, BitVec.getLsbD_ofNat, ← this, show decide (31 - j < 32) = true by simp; omega, Bool.true_and]

theorem getLsbD_messageByte (s : State) (i j : Nat) (h : j < 8) :
    (messageByte s i).getLsbD (7 - j) = cbit s (32 + 8 * i + j) := by
  rw [messageByte, BitVec.getLsbD_ofNat, ← testBit_bitsValue_carrierBits s (32 + 8 * i) 8 j h,
    show decide (7 - j < 8) = true by simp; omega, Bool.true_and]

theorem byteBits_getElem? (v : Byte) (j : Nat) (h : j < 8) : (byteBits v)[j]? = some (v.getLsbD (7 - j)) := by
  rcases j with _ | _ | _ | _ | _ | _ | _ | _ | j <;> first | rfl | omega

theorem bitsOf_length (bytes : List Byte) : (bitsOf bytes).length = 8 * bytes.length := by
  induction bytes with
  | nil => rfl
  | cons v vs ih =>
    simp only [bitsOf, List.flatMap_cons, List.length_append, List.length_cons] at ih ⊢
    rw [ih]
    simp only [byteBits, List.length_cons, List.length_nil]
    omega

/-- Position 8·i + j of the stream is bit 7 − j of byte i (R54). -/
theorem bitsOf_getElem? (bytes : List Byte) (i j : Nat) (v : Byte) (hv : bytes[i]? = some v) (hj : j < 8) :
    (bitsOf bytes)[8 * i + j]? = some (v.getLsbD (7 - j)) := by
  induction bytes generalizing i with
  | nil => simp at hv
  | cons w ws ih =>
    have hlen : (byteBits w).length = 8 := rfl
    show (byteBits w ++ bitsOf ws)[8 * i + j]? = _
    cases i with
    | zero =>
      obtain rfl : w = v := by simpa using hv
      rw [List.getElem?_append_left (by omega), Nat.mul_zero, Nat.zero_add, byteBits_getElem? _ _ hj]
    | succ i =>
      rw [List.getElem?_append_right (by omega), hlen, show 8 * (i + 1) + j - 8 = 8 * i + j by omega]
      exact ih i (by simpa using hv)

theorem envelope_length (len : BitVec 32) (bytes : List Byte) : (envelope len bytes).length = need bytes.length := by
  rw [envelope, bitsOf_length, List.length_append, need]
  simp only [be32, List.length_cons, List.length_nil]
  omega

theorem envelope_header (len : BitVec 32) (bytes : List Byte) (j : Nat) (hj : j < 32) :
    (envelope len bytes)[j]? = some (len.getLsbD (31 - j)) := by
  have key : ∀ i < 4, ∀ l < 8, (envelope len bytes)[8 * i + l]? = some (len.getLsbD (31 - (8 * i + l))) := by
    intro i hi l hl
    have hb : (be32 len ++ bytes)[i]? = some (len.extractLsb' (24 - 8 * i) 8) := by
      rcases i with _ | _ | _ | _ | i <;> first | rfl | omega
    rw [envelope, bitsOf_getElem? _ i l _ hb hl]
    congr 1
    rw [BitVec.getLsbD_extractLsb', show decide (7 - l < 8) = true by simp; omega, Bool.true_and]
    congr 1
    omega
  have := key (j / 8) (by omega) (j % 8) (by omega)
  rwa [Nat.div_add_mod] at this

theorem envelope_message (len : BitVec 32) (bytes : List Byte) (i j : Nat) (v : Byte) (hv : bytes[i]? = some v)
    (hj : j < 8) : (envelope len bytes)[32 + 8 * i + j]? = some (v.getLsbD (7 - j)) := by
  have : (be32 len ++ bytes)[4 + i]? = some v := by
    rw [List.getElem?_append_right (by simp [be32]), ← hv]
    simp [be32]
  rw [envelope, show 32 + 8 * i + j = 8 * (4 + i) + j by omega]
  exact bitsOf_getElem? _ _ _ _ this hj

/-! ## The channel list -/

theorem ctList_length (s : State) : (ctList s).length = (ctR s).toNat + (ctG s).toNat + (ctB s).toNat := by
  unfold ctList
  cases ctR s <;> cases ctG s <;> cases ctB s <;> rfl

theorem alpha_not_mem_ctList (s : State) : Channel.a ∉ ctList s := by
  unfold ctList
  cases ctR s <;> cases ctG s <;> cases ctB s <;> simp

theorem ctList_ordered (s : State) : (ctList s).Pairwise (fun c d => channelIndex c < channelIndex d) := by
  unfold ctList
  cases ctR s <;> cases ctG s <;> cases ctB s <;> simp [channelIndex]

theorem ctList_length_le (s : State) : (ctList s).length ≤ 3 := by
  rw [ctList_length]
  cases ctR s <;> cases ctG s <;> cases ctB s <;> decide

theorem bitIndex_lt (s : State) : bitIndex s < 8 := (s.config.extractLsb' 0 3).isLt

theorem bitIndex_eq (s : State) : bitIndex s = s.config.toNat % 8 := by
  simp [bitIndex]

/-- The channel list, the bit index and the capacity depend on CONFIG, WIDTH and HEIGHT only. -/
theorem ctList_congr {s t : State} (h : t.config = s.config) : ctList t = ctList s := by
  simp [ctList, ctR, ctG, ctB, h]

theorem cap_congr {s t : State} (hc : t.config = s.config) (hw : t.width = s.width) (hh : t.height = s.height) :
    cap t = cap s := by simp [cap, ctList_congr hc, hw, hh]

theorem mapPos_congr {s t : State} (hc : t.config = s.config) (hw : t.width = s.width) (k : Nat) :
    mapPos t k = mapPos s k := by simp [mapPos, ctList_congr hc, hw, bitIndex, hc]

theorem cbit_congr {s t : State} (hc : t.config = s.config) (hw : t.width = s.width) (hg : t.grid = s.grid) (k : Nat) :
    cbit t k = cbit s k := by simp [cbit, mapPos_congr hc hw, pixRead, pixelIndex, hw, hg]

theorem carrierBits_congr {s t : State} (hc : t.config = s.config) (hw : t.width = s.width) (hg : t.grid = s.grid)
    (k n : Nat) : carrierBits t k n = carrierBits s k n := by
  induction n generalizing k with
  | zero => rfl
  | succ n ih => simp [carrierBits, cbit_congr hc hw hg, ih]

theorem declaredLength_congr {s t : State} (hc : t.config = s.config) (hw : t.width = s.width) (hg : t.grid = s.grid) :
    declaredLength t = declaredLength s := by simp [declaredLength, carrierBits_congr hc hw hg]

theorem messageByte_congr {s t : State} (hc : t.config = s.config) (hw : t.width = s.width) (hg : t.grid = s.grid)
    (i : Nat) : messageByte t i = messageByte s i := by simp [messageByte, carrierBits_congr hc hw hg]

theorem messageBytes_congr {s t : State} (hc : t.config = s.config) (hw : t.width = s.width) (hg : t.grid = s.grid)
    (i n : Nat) : messageBytes t i n = messageBytes s i n := by
  induction n generalizing i with
  | zero => rfl
  | succ n ih => simp [messageBytes, messageByte_congr hc hw hg, ih]

theorem messageBytes_length (s : State) (i n : Nat) : (messageBytes s i n).length = n := by
  induction n generalizing i with
  | zero => rfl
  | succ n ih => simp [messageBytes, ih]

theorem messageBytes_getElem? (s : State) (i n j : Nat) (h : j < n) :
    (messageBytes s i n)[j]? = some (messageByte s (i + j)) := by
  induction n generalizing i j with
  | zero => omega
  | succ n ih =>
    cases j with
    | zero => simp [messageBytes]
    | succ j =>
      rw [messageBytes, List.getElem?_cons_succ, ih (i + 1) j (by omega)]
      simp [Nat.add_assoc, Nat.add_comm 1 j]

/-! ## The traversal map -/

theorem cap_lt (s : State) : cap s < 2 ^ 62 := by
  have hw := s.width.isLt
  have hh := s.height.isLt
  have hn := ctList_length_le s
  have h1 : s.width.toNat * s.height.toNat ≤ (2 ^ 30) * (2 ^ 30) := Nat.mul_le_mul (by omega) (by omega)
  have h2 : cap s ≤ (2 ^ 30) * (2 ^ 30) * 3 := Nat.mul_le_mul h1 hn
  omega

theorem need_le (len : BitVec 32) : need len.toNat ≤ 34359738392 := by
  have := len.isLt
  simp only [need]
  omega

/-- What R57 says of a position below the capacity. -/
theorem mapPos_spec {s : State} {k : Nat} (hk : k < cap s) :
    0 < (ctList s).length ∧ k / (ctList s).length < s.width.toNat * s.height.toNat ∧
    (mapPos s k).x < s.width.toNat ∧ (mapPos s k).y < s.height.toNat ∧
    (ctList s)[k % (ctList s).length]? = some (mapPos s k).ch ∧
    pixelIndex s (mapPos s k).x (mapPos s k).y = k / (ctList s).length := by
  have hn : 0 < (ctList s).length := Nat.pos_of_ne_zero fun h => by simp [cap, h] at hk
  have hp : k / (ctList s).length < s.width.toNat * s.height.toNat := (Nat.div_lt_iff_lt_mul hn).2 hk
  have hw : 0 < s.width.toNat := Nat.pos_of_ne_zero fun h => by simp [h] at hp
  refine ⟨hn, hp, Nat.mod_lt _ hw, (Nat.div_lt_iff_lt_mul hw).2 (by rwa [Nat.mul_comm]), ?_, ?_⟩
  · have hlt : k % (ctList s).length < (ctList s).length := Nat.mod_lt _ hn
    simp [mapPos, List.getD, List.getElem?_eq_getElem hlt]
  · show k / (ctList s).length / s.width.toNat * s.width.toNat + k / (ctList s).length % s.width.toNat = _
    rw [Nat.mul_comm, Nat.div_add_mod]

theorem mapPos_ch_mem {s : State} {k : Nat} (hk : k < cap s) : (mapPos s k).ch ∈ ctList s :=
  List.mem_of_getElem? (mapPos_spec hk).2.2.2.2.1

/-- The list order of the channel list is the order of the channel numbers, so no channel stands in it twice. -/
theorem ctList_getElem?_lt {s : State} {i j : Nat} {c d : Channel} (hi : (ctList s)[i]? = some c)
    (hj : (ctList s)[j]? = some d) (h : i < j) : channelIndex c < channelIndex d := by
  obtain ⟨hi', rfl⟩ := List.getElem?_eq_some_iff.1 hi
  obtain ⟨hj', rfl⟩ := List.getElem?_eq_some_iff.1 hj
  exact List.pairwise_iff_getElem.1 (ctList_ordered s) i j hi' hj' h

theorem ctList_getElem?_inj {s : State} {i j : Nat} {c : Channel} (hi : (ctList s)[i]? = some c)
    (hj : (ctList s)[j]? = some c) : i = j := by
  rcases Nat.lt_trichotomy i j with h | h | h
  · exact absurd (ctList_getElem?_lt hi hj h) (Nat.lt_irrefl _)
  · exact h
  · exact absurd (ctList_getElem?_lt hj hi h) (Nat.lt_irrefl _)

/-- Two positions below the capacity with one pixel index and one channel are the same position. -/
theorem mapPos_inj {s : State} {k l : Nat} (hk : k < cap s) (hl : l < cap s)
    (hx : (mapPos s k).x = (mapPos s l).x) (hy : (mapPos s k).y = (mapPos s l).y)
    (hc : (mapPos s k).ch = (mapPos s l).ch) : k = l := by
  obtain ⟨_, _, _, _, hck, hpk⟩ := mapPos_spec hk
  obtain ⟨_, _, _, _, hcl, hpl⟩ := mapPos_spec hl
  have hp : k / (ctList s).length = l / (ctList s).length := by rw [← hpk, ← hpl, hx, hy]
  have hm : k % (ctList s).length = l % (ctList s).length := ctList_getElem?_inj hck (hc ▸ hcl)
  rw [← Nat.div_add_mod k (ctList s).length, ← Nat.div_add_mod l (ctList s).length, hp, hm]

/-! ## Writing carrier bits -/

theorem writeCarrierBit_eq (k : Nat) (b : Bool) (s : State) :
    writeCarrierBit k b s = s.setGrid (writeCarrierBit k b s).grid := rfl

theorem writeCarrierBit_grid_length (k : Nat) (b : Bool) (s : State) :
    (writeCarrierBit k b s).grid.length = s.grid.length := pixWrite_grid_length ..

/-- One carrier bit written: bit `j` of a channel of a full grid is the new bit exactly at `map(k)`. -/
theorem getLsbD_writeCarrierBit {s : State} (hg : s.grid.length = s.width.toNat * s.height.toNat) {k : Nat}
    (hk : k < cap s) (b : Bool) {x y : Nat} (hx : x < s.width.toNat) (c : Channel) (j : Nat) :
    (pixRead (writeCarrierBit k b s) x y c).getLsbD j =
      if mapPos s k = ⟨x, y, c, j⟩ then b else (pixRead s x y c).getLsbD j := by
  obtain ⟨_, _, hx', hy', _, _⟩ := mapPos_spec hk
  rw [writeCarrierBit, pixRead_pixWrite_inRange hg hx' hy' hx]
  have hbit : (mapPos s k).bit = bitIndex s := rfl
  by_cases h : x = (mapPos s k).x ∧ y = (mapPos s k).y ∧ c = (mapPos s k).ch
  · obtain ⟨rfl, rfl, rfl⟩ := h
    rw [if_pos ⟨rfl, rfl, rfl⟩, getLsbD_wbit _ _ _ _ (hbit ▸ bitIndex_lt s)]
    by_cases hj : j = (mapPos s k).bit
    · subst hj; simp
    · rw [if_neg hj, if_neg]
      intro he
      exact hj (congrArg Position.bit he).symm
  · rw [if_neg h, if_neg]
    intro he
    exact h ⟨(congrArg Position.x he).symm, (congrArg Position.y he).symm, (congrArg Position.ch he).symm⟩

theorem writeCarrier_eq (k : Nat) (bits : List Bool) (s : State) :
    writeCarrier k bits s = s.setGrid (writeCarrier k bits s).grid := by
  induction bits generalizing k s with
  | nil => rfl
  | cons b bs ih => simp only [writeCarrier]; rw [ih]; rfl

theorem writeCarrier_grid_length (k : Nat) (bits : List Bool) (s : State) :
    (writeCarrier k bits s).grid.length = s.grid.length := by
  induction bits generalizing k s with
  | nil => rfl
  | cons b bs ih => simp only [writeCarrier]; rw [ih, writeCarrierBit_grid_length]

/-- A bitstream written from position `k` on: bit `j` of a channel of a full grid is the stream bit whose position maps
there, if there is one, and is kept otherwise. -/
theorem getLsbD_writeCarrier {s : State} (hg : s.grid.length = s.width.toNat * s.height.toNat) {k : Nat}
    {bits : List Bool} (hk : k + bits.length ≤ cap s) {x y : Nat} (hx : x < s.width.toNat) (c : Channel) (j : Nat) :
    ((∀ i < bits.length, mapPos s (k + i) ≠ ⟨x, y, c, j⟩) →
      (pixRead (writeCarrier k bits s) x y c).getLsbD j = (pixRead s x y c).getLsbD j) ∧
    (∀ i b, bits[i]? = some b → mapPos s (k + i) = ⟨x, y, c, j⟩ →
      (pixRead (writeCarrier k bits s) x y c).getLsbD j = b) := by
  induction bits generalizing k s with
  | nil => simp [writeCarrier]
  | cons b bs ih =>
    have hlen : k + (bs.length + 1) ≤ cap s := hk
    have hk0 : k < cap s := by omega
    have hg1 : (writeCarrierBit k b s).grid.length
        = (writeCarrierBit k b s).width.toNat * (writeCarrierBit k b s).height.toNat :=
      (writeCarrierBit_grid_length k b s).trans hg
    obtain ⟨ih1, ih2⟩ := ih (s := writeCarrierBit k b s) (k := k + 1) hg1
      (show k + 1 + bs.length ≤ cap s by omega) hx
    have hmap : ∀ i, mapPos (writeCarrierBit k b s) i = mapPos s i := fun i => rfl
    simp only [hmap] at ih1 ih2
    have hstep := getLsbD_writeCarrierBit (y := y) hg hk0 b hx c j
    refine ⟨fun hne => ?_, fun i b' hb hm => ?_⟩
    · rw [writeCarrier, ih1 fun i hi => by
        have := hne (i + 1) (by simpa using hi)
        rwa [show k + (i + 1) = k + 1 + i by omega] at this]
      rw [hstep, if_neg (by simpa using hne 0 (by simp))]
    · cases i with
      | zero =>
        obtain rfl : b = b' := by simpa using hb
        rw [writeCarrier, ih1 fun i hi he => by
          have hinj := mapPos_inj (k := k + 1 + i) (l := k) (by omega) hk0
          have e := he.trans hm.symm
          have := hinj (congrArg Position.x e) (congrArg Position.y e) (congrArg Position.ch e)
          omega]
        rw [hstep, if_pos (by simpa using hm)]
      | succ i => exact ih2 i b' (by simpa using hb) (by rwa [show k + 1 + i = k + (i + 1) by omega])

/-- The carrier bits after a bitstream is written from position 0 on. -/
theorem cbit_writeCarrier {s : State} (hg : s.grid.length = s.width.toNat * s.height.toNat) {bits : List Bool}
    (hc : bits.length ≤ cap s) (k : Nat) (b : Bool) (hb : bits[k]? = some b) : cbit (writeCarrier 0 bits s) k = b := by
  have hk : k < bits.length := by
    by_contra h
    simp [List.getElem?_eq_none (Nat.le_of_not_lt h)] at hb
  obtain ⟨_, _, hx, _, _, _⟩ := mapPos_spec (Nat.lt_of_lt_of_le hk hc)
  have hm : mapPos (writeCarrier 0 bits s) k = mapPos s k := by rw [writeCarrier_eq]; rfl
  rw [cbit, hm, rbit_eq_getLsbD]
  exact (getLsbD_writeCarrier hg (by simpa using hc) hx _ _).2 k b hb (by simp)

end Sys2Proof.Machine
end

