-- ==== Sys2Proof/Laws/Commands.lean ====
section
/-!
SUPPORT. What each shared check and each command can answer, said once: later proofs cite these instead of unfolding a
meaning. Each is an equality with the state the rule gives, one for each case of the checks.
-/

namespace Sys2Proof.Machine

/-! ## The shared checks -/

theorem inRange_iff {s : State} {x y : Nat} : inRange s x y = true ↔ x < s.width.toNat ∧ y < s.height.toNat := by
  simp [inRange]

theorem capacityChecked_short {s : State} {rest} (h : cap s < need s.payLen.toNat) :
    capacityChecked s rest = .next ((report (need s.payLen.toNat) (cap s) s).setStatus .capacityError) := by
  simp [capacityChecked, h, raise]

theorem capacityChecked_fits {s : State} {rest} (h : need s.payLen.toNat ≤ cap s) :
    capacityChecked s rest = rest (report (need s.payLen.toNat) (cap s) s) := by
  simp [capacityChecked, Nat.not_lt.2 h]

theorem lengthChecked_format {s : State} {rest} (h : cap s < 32) :
    lengthChecked s rest = .next ((report 32 (cap s) s).setStatus .formatError) := by
  simp [lengthChecked, h, raise]

theorem lengthChecked_truncation {s : State} {rest} (h : 32 ≤ cap s) (ht : cap s < need (declaredLength s).toNat) :
    lengthChecked s rest = .next ((report (need (declaredLength s).toNat) (cap s)
      (s.setLenOut (declaredLength s))).setStatus .truncationError) := by
  simp [lengthChecked, Nat.not_lt.2 h, ht, raise]

theorem lengthChecked_fits {s : State} {rest} (h : 32 ≤ cap s) (hf : need (declaredLength s).toNat ≤ cap s) :
    lengthChecked s rest =
      rest (report (need (declaredLength s).toNat) (cap s) (s.setLenOut (declaredLength s))) := by
  simp [lengthChecked, Nat.not_lt.2 h, Nat.not_lt.2 hf]

theorem positionChecked_inside {s : State} {rest} (h : s.argK.toNat < cap s) :
    positionChecked s rest = .next ((rest s).setStatus .ok) := by
  simp [positionChecked, h, finish]

theorem positionChecked_outside {s : State} {rest} (h : cap s ≤ s.argK.toNat) :
    positionChecked s rest = .next (s.setStatus .indexError) := by
  simp [positionChecked, Nat.not_lt.2 h, raise]

/-! ## The report registers -/

theorem report_needBits (needed avail : Nat) (s : State) (h : needed < 2 ^ 64) :
    (report needed avail s).needBits.toNat = needed := by
  simpa [report] using h

theorem report_availBits (needed avail : Nat) (s : State) (h : avail < 2 ^ 64) :
    (report needed avail s).availBits.toNat = avail := by
  simpa [report] using h

theorem need_lt_pow64 (len : BitVec 32) : need len.toNat < 2 ^ 64 := by
  have := need_le len
  omega

theorem cap_lt_pow64 (s : State) : cap s < 2 ^ 64 := by
  have := cap_lt s
  omega

theorem declaredLength_toNat (s : State) :
    (declaredLength s).toNat = ∑ j ∈ Finset.range 32, (cbit s j).toNat * 2 ^ (31 - j) := by
  have h := bitsValue_lt (carrierBits s 0 32)
  rw [carrierBits_length] at h
  rw [declaredLength, BitVec.toNat_ofNat, Nat.mod_eq_of_lt h, bitsValue_carrierBits]
  simp

theorem messageByte_toNat (s : State) (i : Nat) :
    (messageByte s i).toNat = ∑ j ∈ Finset.range 8, (cbit s (32 + 8 * i + j)).toNat * 2 ^ (7 - j) := by
  have h := bitsValue_lt (carrierBits s (32 + 8 * i) 8)
  rw [carrierBits_length] at h
  rw [messageByte, BitVec.toNat_ofNat, Nat.mod_eq_of_lt h, bitsValue_carrierBits]

/-- Counts reported before the bits are written and after are the same state. -/
theorem writeCarrier_report (n a k : Nat) (bits : List Bool) (s : State) :
    writeCarrier k bits (report n a s) = (report n a s).setGrid (writeCarrier k bits s).grid := by
  have : writeCarrier k bits (report n a s) = report n a (writeCarrier k bits s) := by
    induction bits generalizing k s with
    | nil => rfl
    | cons b bs ih => exact ih (k + 1) (writeCarrierBit k b s)
  rw [this, writeCarrier_eq]; rfl

/-- The same for the payload bytes and the registers EXTRACT writes. -/
theorem payWriteRange_report (n v : Nat) (len : BitVec 32) (a : Nat) (bytes : List Byte) (s : State) :
    payWriteRange a bytes (report n v (s.setLenOut len)) =
      (report n v (s.setLenOut len)).setPayload (payWriteRange a bytes s).payload := by
  have : payWriteRange a bytes (report n v (s.setLenOut len)) = report n v ((payWriteRange a bytes s).setLenOut len) := by
    induction bytes generalizing a s with
    | nil => rfl
    | cons b bs ih => exact ih (a + 1) (payWrite a b s)
  rw [this, payWriteRange_eq]; rfl

/-! ## The commands -/

theorem exec_getpix_inside {s : State} (hx : s.argX.toNat < s.width.toNat) (hy : s.argY.toNat < s.height.toNat) :
    exec .getpix s = .next ((s.setPixData (packPixel (pixRead s s.argX.toNat s.argY.toNat .r)
      (pixRead s s.argX.toNat s.argY.toNat .g) (pixRead s s.argX.toNat s.argY.toNat .b)
      (pixRead s s.argX.toNat s.argY.toNat .a))).setStatus .ok) := by
  simp [exec, execGetpix, inRange, hx, hy, finish]

theorem exec_getpix_outside {s : State} (h : s.width.toNat ≤ s.argX.toNat ∨ s.height.toNat ≤ s.argY.toNat) :
    exec .getpix s = .next (s.setStatus .indexError) := by
  have : ¬ inRange s s.argX.toNat s.argY.toNat = true := fun hr => by have := inRange_iff.1 hr; omega
  simp [exec, execGetpix, this, raise]

/-- The grid SETPIX leaves. -/
@[irreducible] def setpixGrid (s : State) : List Pixel :=
  (pixWrite s.argX.toNat s.argY.toNat .a (unpackChannel s.pixData .a)
    (pixWrite s.argX.toNat s.argY.toNat .b (unpackChannel s.pixData .b)
      (pixWrite s.argX.toNat s.argY.toNat .g (unpackChannel s.pixData .g)
        (pixWrite s.argX.toNat s.argY.toNat .r (unpackChannel s.pixData .r) s)))).grid

theorem exec_setpix_inside {s : State} (hx : s.argX.toNat < s.width.toNat) (hy : s.argY.toNat < s.height.toNat) :
    exec .setpix s = .next ((s.setGrid (setpixGrid s)).setStatus .ok) := by
  simp only [exec, execSetpix, inRange, hx, hy, decide_true, Bool.and_self, if_true, finish]
  unfold setpixGrid
  rfl

theorem exec_setpix_outside {s : State} (h : s.width.toNat ≤ s.argX.toNat ∨ s.height.toNat ≤ s.argY.toNat) :
    exec .setpix s = .next (s.setStatus .indexError) := by
  have : ¬ inRange s s.argX.toNat s.argY.toNat = true := fun hr => by have := inRange_iff.1 hr; omega
  simp [exec, execSetpix, this, raise]

theorem setpixGrid_length (s : State) : (setpixGrid s).length = s.grid.length := by simp [setpixGrid]

theorem pixRead_setpixGrid {s : State} (hg : s.GridFull) (hx : s.argX.toNat < s.width.toNat)
    (hy : s.argY.toNat < s.height.toNat) {x y : Nat} (hx' : x < s.width.toNat) (c : Channel) :
    pixRead (s.setGrid (setpixGrid s)) x y c =
      if x = s.argX.toNat ∧ y = s.argY.toNat then unpackChannel s.pixData c else pixRead s x y c := by
  have key : pixRead (s.setGrid (setpixGrid s)) x y c =
      pixRead (pixWrite s.argX.toNat s.argY.toNat .a (unpackChannel s.pixData .a)
        (pixWrite s.argX.toNat s.argY.toNat .b (unpackChannel s.pixData .b)
          (pixWrite s.argX.toNat s.argY.toNat .g (unpackChannel s.pixData .g)
            (pixWrite s.argX.toNat s.argY.toNat .r (unpackChannel s.pixData .r) s)))) x y c := by
    unfold setpixGrid; rfl
  rw [key]
  iterate 4
    rw [pixRead_pixWrite_inRange (by simpa using hg) (by simpa using hx) (by simpa using hy) (by simpa using hx')]
  by_cases h : x = s.argX.toNat ∧ y = s.argY.toNat
  · obtain ⟨rfl, rfl⟩ := h
    cases c <;> simp
  · have h' : ∀ d : Channel, ¬ (x = s.argX.toNat ∧ y = s.argY.toNat ∧ c = d) := fun d ⟨h1, h2, _⟩ => h ⟨h1, h2⟩
    simp only [h, h', if_false]

theorem exec_check_eq (s : State) : exec .check s = .next ((report (need s.payLen.toNat) (cap s) s).setStatus
    (if cap s < need s.payLen.toNat then .capacityError else .ok)) := by
  show execCheck s = _
  by_cases h : cap s < need s.payLen.toNat
  · rw [execCheck, capacityChecked_short h, if_pos h]
  · rw [execCheck, capacityChecked_fits (Nat.not_lt.1 h), if_neg h]; rfl

theorem exec_embed_short {s : State} (h : cap s < need s.payLen.toNat) :
    exec .embed s = .next ((report (need s.payLen.toNat) (cap s) s).setStatus .capacityError) := by
  simp only [exec, execEmbed]; exact capacityChecked_short h

theorem exec_embed_unwritten {s : State} (h : need s.payLen.toNat ≤ cap s) {a : Nat} (ha : a < s.payLen.toNat)
    (hn : payRead s a = none) (hb : ∀ b < a, payRead s b ≠ none) :
    exec .embed s = .fault (.uninitPayload (BitVec.ofNat 32 a)) := by
  have hr : payReadRange (report (need s.payLen.toNat) (cap s) s) 0 s.payLen.toNat = .error a :=
    payReadRange_error.2 ⟨a, ha, by simp, by simpa using hn, by simpa using hb⟩
  show execEmbed s = _
  rw [execEmbed, capacityChecked_fits h]
  show (match payReadRange (report (need s.payLen.toNat) (cap s) s) 0 s.payLen.toNat with
    | .error a => _ | .ok bytes => _) = _
  rw [hr]

theorem exec_embed_fits {s : State} (h : need s.payLen.toNat ≤ cap s) {bytes : List Byte}
    (hl : bytes.length = s.payLen.toNat) (hb : ∀ i < s.payLen.toNat, payRead s i = bytes[i]?) :
    exec .embed s = .next (((report (need s.payLen.toNat) (cap s) s).setGrid
      (writeCarrier 0 (envelope s.payLen bytes) s).grid).setStatus .ok) := by
  have hw := writeCarrier_report (need s.payLen.toNat) (cap s) 0 (envelope s.payLen bytes) s
  have hr : payReadRange (report (need s.payLen.toNat) (cap s) s) 0 s.payLen.toNat = .ok bytes :=
    payReadRange_ok.2 ⟨hl, by simpa using hb⟩
  show execEmbed s = _
  rw [execEmbed, capacityChecked_fits h]
  show (match payReadRange (report (need s.payLen.toNat) (cap s) s) 0 s.payLen.toNat with
    | .error a => _ | .ok bytes => _) = _
  rw [hr, ← hw]
  rfl

/-- Everything EMBED can answer. -/
theorem exec_embed_cases (s : State) :
    (cap s < need s.payLen.toNat ∧
      exec .embed s = .next ((report (need s.payLen.toNat) (cap s) s).setStatus .capacityError)) ∨
    (need s.payLen.toNat ≤ cap s ∧ ∃ a < s.payLen.toNat, payRead s a = none ∧ (∀ b < a, payRead s b ≠ none) ∧
      exec .embed s = .fault (.uninitPayload (BitVec.ofNat 32 a))) ∨
    (need s.payLen.toNat ≤ cap s ∧ ∃ bytes : List Byte, bytes.length = s.payLen.toNat ∧
      (∀ i < s.payLen.toNat, payRead s i = bytes[i]?) ∧
      exec .embed s = .next (((report (need s.payLen.toNat) (cap s) s).setGrid
        (writeCarrier 0 (envelope s.payLen bytes) s).grid).setStatus .ok)) := by
  by_cases h : cap s < need s.payLen.toNat
  · exact .inl ⟨h, exec_embed_short h⟩
  · have h := Nat.not_lt.1 h
    cases hr : payReadRange s 0 s.payLen.toNat with
    | error e =>
      obtain ⟨i, hi, rfl, hn, hb⟩ := payReadRange_error.1 hr
      simp only [Nat.zero_add] at hn hb
      exact .inr (.inl ⟨h, i, hi, hn, hb, exec_embed_unwritten h hi hn hb⟩)
    | ok bytes =>
      obtain ⟨hl, hb⟩ := payReadRange_ok.1 hr
      simp only [Nat.zero_add] at hb
      exact .inr (.inr ⟨h, bytes, hl, hb, exec_embed_fits h hl hb⟩)

theorem exec_declen_format {s : State} (h : cap s < 32) :
    exec .declen s = .next ((report 32 (cap s) s).setStatus .formatError) := by
  simp only [exec, execDeclen]; exact lengthChecked_format h

theorem exec_declen_truncation {s : State} (h : 32 ≤ cap s) (ht : cap s < need (declaredLength s).toNat) :
    exec .declen s = .next ((report (need (declaredLength s).toNat) (cap s)
      (s.setLenOut (declaredLength s))).setStatus .truncationError) := by
  simp only [exec, execDeclen]; exact lengthChecked_truncation h ht

theorem exec_declen_fits {s : State} (h : 32 ≤ cap s) (hf : need (declaredLength s).toNat ≤ cap s) :
    exec .declen s = .next ((report (need (declaredLength s).toNat) (cap s)
      (s.setLenOut (declaredLength s))).setStatus .ok) := by
  simp only [exec, execDeclen]; exact lengthChecked_fits h hf

theorem exec_extract_format {s : State} (h : cap s < 32) :
    exec .extract s = .next ((report 32 (cap s) s).setStatus .formatError) := by
  simp only [exec, execExtract]; exact lengthChecked_format h

theorem exec_extract_truncation {s : State} (h : 32 ≤ cap s) (ht : cap s < need (declaredLength s).toNat) :
    exec .extract s = .next ((report (need (declaredLength s).toNat) (cap s)
      (s.setLenOut (declaredLength s))).setStatus .truncationError) := by
  simp only [exec, execExtract]; exact lengthChecked_truncation h ht

theorem exec_extract_fits {s : State} (h : 32 ≤ cap s) (hf : need (declaredLength s).toNat ≤ cap s) :
    exec .extract s = .next (((report (need (declaredLength s).toNat) (cap s)
      (s.setLenOut (declaredLength s))).setPayload
        (payWriteRange 0 (messageBytes s 0 (declaredLength s).toNat) s).payload).setStatus .ok) := by
  have hp := payWriteRange_report (need (declaredLength s).toNat) (cap s) (declaredLength s) 0
    (messageBytes s 0 (declaredLength s).toNat) s
  have hm : messageBytes (report (need (declaredLength s).toNat) (cap s) (s.setLenOut (declaredLength s))) 0
      (declaredLength s).toNat = messageBytes s 0 (declaredLength s).toNat :=
    messageBytes_congr (s := s)
      (t := report (need (declaredLength s).toNat) (cap s) (s.setLenOut (declaredLength s))) rfl rfl rfl _ _
  show execExtract s = _
  rw [execExtract, lengthChecked_fits h hf, ← hp, ← hm]
  rfl

/-- MAP below the capacity: the four results are the numbers of R57, exactly. -/
theorem exec_map_inside {s : State} (h : s.argK.toNat < cap s) :
    ∃ (x y : Dim) (c : BitVec 2) (j : BitVec 3), exec .map s = .next ((s.setMapOut x y c j).setStatus .ok) ∧
      x.toNat = (mapPos s s.argK.toNat).x ∧ y.toNat = (mapPos s s.argK.toNat).y ∧
      c.toNat = channelIndex (mapPos s s.argK.toNat).ch ∧ j.toNat = (mapPos s s.argK.toNat).bit := by
  obtain ⟨_, _, hx, hy, _, _⟩ := mapPos_spec h
  have hw := s.width.isLt
  have hh := s.height.isLt
  have hb : (mapPos s s.argK.toNat).bit < 8 := bitIndex_lt s
  have hc : channelIndex (mapPos s s.argK.toNat).ch < 4 := by cases (mapPos s s.argK.toNat).ch <;> decide
  refine ⟨BitVec.ofNat 30 (mapPos s s.argK.toNat).x, BitVec.ofNat 30 (mapPos s s.argK.toNat).y,
    BitVec.ofNat 2 (channelIndex (mapPos s s.argK.toNat).ch), BitVec.ofNat 3 (mapPos s s.argK.toNat).bit, ?_, ?_, ?_, ?_, ?_⟩
  · simp only [exec, execMap]; exact positionChecked_inside h
  all_goals rw [BitVec.toNat_ofNat, Nat.mod_eq_of_lt (by omega)]

theorem exec_wrbit_inside {s : State} (h : s.argK.toNat < cap s) :
    exec .wrbit s = .next ((writeCarrierBit s.argK.toNat (s.bitIo.getLsbD 0) s).setStatus .ok) := by
  simp only [exec, execWrbit]; exact positionChecked_inside h

theorem exec_rdbit_inside {s : State} (h : s.argK.toNat < cap s) :
    exec .rdbit s = .next ((s.setBitIo (BitVec.ofBool (cbit s s.argK.toNat))).setStatus .ok) := by
  simp only [exec, execRdbit]; exact positionChecked_inside h

theorem exec_map_outside {s : State} (h : cap s ≤ s.argK.toNat) : exec .map s = .next (s.setStatus .indexError) := by
  simp only [exec, execMap]; exact positionChecked_outside h

theorem exec_wrbit_outside {s : State} (h : cap s ≤ s.argK.toNat) : exec .wrbit s = .next (s.setStatus .indexError) := by
  simp only [exec, execWrbit]; exact positionChecked_outside h

theorem exec_rdbit_outside {s : State} (h : cap s ≤ s.argK.toNat) : exec .rdbit s = .next (s.setStatus .indexError) := by
  simp only [exec, execRdbit]; exact positionChecked_outside h

/-! ## All commands at once -/

/-- Everything a command can answer when it goes on: NOP keeps the state, an error writes STATUS and the report registers
at most, and a success is one of nine shapes. A memory that changes is named by a variable with what is known of it, so
that no proof unfolds how it was made. -/
theorem exec_next_cases {i : Instr} {s t : State} (h : exec i s = .next t) :
    (i = .nop ∧ t = s) ∨
    (∃ e, ((e = .indexError ∧ (i = .getpix ∨ i = .setpix ∨ i = .map ∨ i = .wrbit ∨ i = .rdbit)) ∨
      (e = .illegalCommand ∧ ((∃ x, i = .illegal101x x) ∨ ∃ x, i = .illegal11xx x))) ∧ t = s.setStatus e) ∨
    ((i = .embed ∨ i = .check) ∧ cap s < need s.payLen.toNat ∧
      t = (report (need s.payLen.toNat) (cap s) s).setStatus .capacityError) ∨
    ((i = .extract ∨ i = .declen) ∧ cap s < 32 ∧ t = (report 32 (cap s) s).setStatus .formatError) ∨
    ((i = .extract ∨ i = .declen) ∧ 32 ≤ cap s ∧ cap s < need (declaredLength s).toNat ∧
      t = (report (need (declaredLength s).toNat) (cap s) (s.setLenOut (declaredLength s))).setStatus .truncationError) ∨
    (i = .check ∧ need s.payLen.toNat ≤ cap s ∧ t = (report (need s.payLen.toNat) (cap s) s).setStatus .ok) ∨
    (i = .embed ∧ need s.payLen.toNat ≤ cap s ∧ ∃ (bytes : List Byte) (g : List Pixel),
      bytes.length = s.payLen.toNat ∧ (∀ j < s.payLen.toNat, payRead s j = bytes[j]?) ∧
      g = (writeCarrier 0 (envelope s.payLen bytes) s).grid ∧ g.length = s.grid.length ∧
      t = ((report (need s.payLen.toNat) (cap s) s).setGrid g).setStatus .ok) ∨
    (i = .declen ∧ 32 ≤ cap s ∧ need (declaredLength s).toNat ≤ cap s ∧
      t = (report (need (declaredLength s).toNat) (cap s) (s.setLenOut (declaredLength s))).setStatus .ok) ∨
    (i = .extract ∧ 32 ≤ cap s ∧ need (declaredLength s).toNat ≤ cap s ∧
      ∃ m, m = (payWriteRange 0 (messageBytes s 0 (declaredLength s).toNat) s).payload ∧
      t = ((report (need (declaredLength s).toNat) (cap s) (s.setLenOut (declaredLength s))).setPayload m).setStatus
        .ok) ∨
    (i = .getpix ∧ s.argX.toNat < s.width.toNat ∧ s.argY.toNat < s.height.toNat ∧
      ∃ d, t = (s.setPixData d).setStatus .ok) ∨
    (i = .setpix ∧ s.argX.toNat < s.width.toNat ∧ s.argY.toNat < s.height.toNat ∧
      ∃ g, g = setpixGrid s ∧ g.length = s.grid.length ∧ t = (s.setGrid g).setStatus .ok) ∨
    (i = .map ∧ s.argK.toNat < cap s ∧ ∃ (x y : Dim) (c : BitVec 2) (j : BitVec 3),
      t = (s.setMapOut x y c j).setStatus .ok ∧ x.toNat = (mapPos s s.argK.toNat).x ∧
      y.toNat = (mapPos s s.argK.toNat).y ∧ c.toNat = channelIndex (mapPos s s.argK.toNat).ch) ∨
    (i = .wrbit ∧ s.argK.toNat < cap s ∧ ∃ g, g = (writeCarrierBit s.argK.toNat (s.bitIo.getLsbD 0) s).grid ∧
      g.length = s.grid.length ∧ t = (s.setGrid g).setStatus .ok) ∨
    (i = .rdbit ∧ s.argK.toNat < cap s ∧ ∃ b, t = (s.setBitIo b).setStatus .ok) := by
  cases i with
  | nop => exact .inl ⟨rfl, by simpa [exec, execNop] using h.symm⟩
  | illegal101x x => exact .inr (.inl ⟨.illegalCommand, .inr ⟨rfl, .inl ⟨x, rfl⟩⟩, by
      simpa [exec, execIllegal101x, raise] using h.symm⟩)
  | illegal11xx x => exact .inr (.inl ⟨.illegalCommand, .inr ⟨rfl, .inr ⟨x, rfl⟩⟩, by
      simpa [exec, execIllegal11xx, raise] using h.symm⟩)
  | check =>
    rw [exec_check_eq] at h
    by_cases hc : cap s < need s.payLen.toNat
    · rw [if_pos hc] at h; simp_all
    · rw [if_neg hc] at h; simp_all
  | embed =>
    rcases exec_embed_cases s with ⟨hc, he⟩ | ⟨hc, a, -, -, -, he⟩ | ⟨hc, bytes, hl, hb, he⟩
    · simp_all
    · simp [he] at h
    · rw [he] at h
      have := (Host.Outcome.next.inj h).symm
      exact .inr (.inr (.inr (.inr (.inr (.inr (.inl ⟨rfl, hc, bytes, _, hl, hb, rfl,
        writeCarrier_grid_length _ _ _, this⟩))))))
  | declen =>
    by_cases hc : cap s < 32
    · rw [exec_declen_format hc] at h; simp_all
    · have hc := Nat.not_lt.1 hc
      by_cases ht : cap s < need (declaredLength s).toNat
      · rw [exec_declen_truncation hc ht] at h; simp_all
      · rw [exec_declen_fits hc (Nat.not_lt.1 ht)] at h; simp_all
  | extract =>
    by_cases hc : cap s < 32
    · rw [exec_extract_format hc] at h; simp_all
    · have hc := Nat.not_lt.1 hc
      by_cases ht : cap s < need (declaredLength s).toNat
      · rw [exec_extract_truncation hc ht] at h; simp_all
      · rw [exec_extract_fits hc (Nat.not_lt.1 ht)] at h
        have := (Host.Outcome.next.inj h).symm
        exact .inr (.inr (.inr (.inr (.inr (.inr (.inr (.inr (.inl ⟨rfl, hc, Nat.not_lt.1 ht, _, rfl, this⟩))))))))
  | map =>
    by_cases hk : s.argK.toNat < cap s
    · obtain ⟨x, y, c, j, he, hx, hy, hc, -⟩ := exec_map_inside hk
      rw [he] at h
      have := (Host.Outcome.next.inj h).symm
      simp only [reduceCtorEq, false_and, false_or, or_false, true_and]
      exact .inr ⟨hk, x, y, c, j, this, hx, hy, hc⟩
    · rw [exec_map_outside (Nat.not_lt.1 hk)] at h; simp_all
  | wrbit =>
    by_cases hk : s.argK.toNat < cap s
    · rw [exec_wrbit_inside hk] at h
      have := (Host.Outcome.next.inj h).symm
      simp only [reduceCtorEq, false_and, false_or, or_false, true_and]
      exact .inr ⟨hk, _, rfl, writeCarrierBit_grid_length _ _ _, this⟩
    · rw [exec_wrbit_outside (Nat.not_lt.1 hk)] at h; simp_all
  | rdbit =>
    by_cases hk : s.argK.toNat < cap s
    · rw [exec_rdbit_inside hk] at h
      have := (Host.Outcome.next.inj h).symm
      simp only [reduceCtorEq, false_and, false_or, true_and]
      exact .inr ⟨hk, _, this⟩
    · rw [exec_rdbit_outside (Nat.not_lt.1 hk)] at h; simp_all
  | getpix =>
    by_cases hr : s.argX.toNat < s.width.toNat ∧ s.argY.toNat < s.height.toNat
    · rw [exec_getpix_inside hr.1 hr.2] at h
      have := (Host.Outcome.next.inj h).symm
      simp only [reduceCtorEq, false_and, false_or, or_false, true_and]
      exact .inr ⟨hr.1, hr.2, _, this⟩
    · rw [exec_getpix_outside (by omega)] at h; simp_all
  | setpix =>
    by_cases hr : s.argX.toNat < s.width.toNat ∧ s.argY.toNat < s.height.toNat
    · rw [exec_setpix_inside hr.1 hr.2] at h
      have := (Host.Outcome.next.inj h).symm
      simp only [reduceCtorEq, false_and, false_or, or_false, true_and]
      exact .inr ⟨hr.1, hr.2, _, rfl, setpixGrid_length s, this⟩
    · rw [exec_setpix_outside (by omega)] at h; simp_all

/-- A command refuses nothing, and only EMBED can fault. -/
theorem exec_ne_refused (i : Instr) (s : State) (r : Refusal) : exec i s ≠ .refused r := by
  cases i with
  | embed => rcases exec_embed_cases s with ⟨-, h⟩ | ⟨-, a, -, -, -, h⟩ | ⟨-, b, -, -, h⟩ <;> simp [h]
  | nop => simp [exec, execNop]
  | illegal101x => simp [exec, execIllegal101x]
  | illegal11xx => simp [exec, execIllegal11xx]
  | check => simp [exec_check_eq]
  | extract => simp only [exec, execExtract, lengthChecked]; split <;> [skip; split] <;> simp
  | declen => simp only [exec, execDeclen, lengthChecked]; split <;> [skip; split] <;> simp
  | map => simp only [exec, execMap, positionChecked]; split <;> simp
  | wrbit => simp only [exec, execWrbit, positionChecked]; split <;> simp
  | rdbit => simp only [exec, execRdbit, positionChecked]; split <;> simp
  | getpix => show execGetpix _ ≠ _; unfold execGetpix; dsimp only; split <;> simp
  | setpix => show execSetpix _ ≠ _; unfold execSetpix; dsimp only; split <;> simp

theorem exec_fault_embed {i : Instr} {s : State} {f : Fault} (h : exec i s = .fault f) : i = .embed := by
  cases i with
  | embed => rfl
  | nop => simp [exec, execNop] at h
  | illegal101x => simp [exec, execIllegal101x] at h
  | illegal11xx => simp [exec, execIllegal11xx] at h
  | check => simp [exec_check_eq] at h
  | extract =>
    simp only [exec, execExtract, lengthChecked] at h; split at h <;> [skip; split at h] <;> simp at h
  | declen =>
    simp only [exec, execDeclen, lengthChecked] at h; split at h <;> [skip; split at h] <;> simp at h
  | map => simp only [exec, execMap, positionChecked] at h; split at h <;> simp at h
  | wrbit => simp only [exec, execWrbit, positionChecked] at h; split at h <;> simp at h
  | rdbit => simp only [exec, execRdbit, positionChecked] at h; split at h <;> simp at h
  | getpix => change execGetpix _ = _ at h; unfold execGetpix at h; dsimp only at h; split at h <;> simp at h
  | setpix => change execSetpix _ = _ at h; unfold execSetpix at h; dsimp only at h; split at h <;> simp at h

end Sys2Proof.Machine
end

