-- ==== Sys2Proof/Laws/Notation.lean ====
section
/-! SUPPORT. The fields of a record: reading undoes writing, for one digit, a field and a run of bytes. -/

namespace Sys2Proof.Machine

theorem hexDigitValue_hexDigit {n : Nat} (h : n < 16) : hexDigitValue (hexDigit n) = some n := by
  have : ∀ n < 16, hexDigitValue (hexDigit n) = some n := by decide
  exact this n h

theorem hexField_length (digits v : Nat) : (hexField digits v).length = digits := by
  induction digits generalizing v with
  | zero => rfl
  | succ n ih => simp [hexField, ih]

/-- Reading a field gives the value before it, shifted, plus the field's number. -/
theorem takeHexFrom_hexField (digits acc v : Nat) (rest : List Char) (h : v < 16 ^ digits) :
    takeHexFrom digits acc (hexField digits v ++ rest) = some (acc * 16 ^ digits + v, rest) := by
  have split_last : ∀ (m : Nat) (acc : Nat) (xs ys : List Char), xs.length = m →
      takeHexFrom (m + 1) acc (xs ++ ys) =
        (takeHexFrom m acc xs).bind (fun p => takeHexFrom 1 p.1 (p.2 ++ ys)) := by
    intro m
    induction m with
    | zero => intro acc xs ys hx; simp [List.length_eq_zero_iff.1 hx, takeHexFrom]
    | succ m ih =>
      intro acc xs ys hx
      cases xs with
      | nil => simp at hx
      | cons c xs =>
        rw [List.cons_append, takeHexFrom, takeHexFrom]
        cases hexDigitValue c with
        | none => rfl
        | some d => exact ih _ _ _ (by simpa using hx)
  induction digits generalizing acc v rest with
  | zero => simp at h; simp [takeHexFrom, hexField, h]
  | succ n ih =>
    have hv : v / 16 < 16 ^ n := by rw [Nat.pow_succ] at h; omega
    have h0 := ih acc (v / 16) [] hv
    rw [List.append_nil] at h0
    rw [hexField, List.append_assoc, split_last n acc _ _ (hexField_length _ _), h0]
    simp only [Option.bind_some, List.nil_append, List.cons_append, takeHexFrom]
    rw [hexDigitValue_hexDigit (Nat.mod_lt _ (by decide))]
    simp only [Option.some.injEq, Prod.mk.injEq, and_true]
    rw [Nat.pow_succ, Nat.mul_add, ← Nat.mul_assoc, Nat.mul_comm 16 acc, Nat.mul_assoc, Nat.mul_comm 16 (16 ^ n)]
    omega

theorem takeHex_hexField (digits v : Nat) (rest : List Char) (h : v < 16 ^ digits) :
    takeHex digits (hexField digits v ++ rest) = some (v, rest) := by
  simp [takeHex, takeHexFrom_hexField _ _ _ _ h]

/-- A run of bytes, two digits each, reads back. -/
theorem takeBytes_flatMap (img : List Byte) (fuel : Nat) (h : img.length ≤ fuel) :
    takeBytes fuel (img.flatMap (fun v => hexField 2 v.toNat)) = some img := by
  induction img generalizing fuel with
  | nil => cases fuel <;> rfl
  | cons v vs ih =>
    cases fuel with
    | zero => simp at h
    | succ fuel =>
      have ht := takeHex_hexField 2 v.toNat (vs.flatMap (fun v => hexField 2 v.toNat)) v.isLt
      rw [List.flatMap_cons]
      have hl := hexField_length 2 v.toNat
      generalize hexField 2 v.toNat = xs at ht hl
      match xs, hl with
      | [c, d], _ =>
        simp only [List.cons_append, List.nil_append] at ht
        simp only [List.cons_append, List.nil_append, takeBytes]
        rw [ht]
        simp only
        rw [ih fuel (by simpa using h)]
        simp

end Sys2Proof.Machine
end

