-- ==== Sys2Proof/Laws/PerInstr.lean ====
section
/-!
SUPPORT. What holds of every command as syntax, one lemma for each constructor. `OpcodeRow`: the command is well formed,
its code lies in exactly one row of the opcode table, the row of its mnemonic, and decoding the code gives the command
back (R76, R77).
-/

namespace Sys2Proof.Laws.OpcodeRow

/-- R76: "every 4-bit value selects exactly one row". -/
def Statement (i : Instr) : Prop :=
  i.wellFormed = true ∧ (rowsOf (encode i)).map OpRow.name = [mnemonic i] ∧ decodeOp (encode i) = i

theorem nop : Statement .nop := by unfold Statement; decide
theorem embed : Statement .embed := by unfold Statement; decide
theorem extract : Statement .extract := by unfold Statement; decide
theorem check : Statement .check := by unfold Statement; decide
theorem declen : Statement .declen := by unfold Statement; decide
theorem map : Statement .map := by unfold Statement; decide
theorem wrbit : Statement .wrbit := by unfold Statement; decide
theorem rdbit : Statement .rdbit := by unfold Statement; decide
theorem getpix : Statement .getpix := by unfold Statement; decide
theorem setpix : Statement .setpix := by unfold Statement; decide
theorem illegal101x (x : BitVec 1) : Statement (.illegal101x x) := by revert x; unfold Statement; decide
theorem illegal11xx (x : BitVec 2) : Statement (.illegal11xx x) := by revert x; unfold Statement; decide

end Sys2Proof.Laws.OpcodeRow
end

