-- ==== Sys2Proof/Laws/Port.lean ====
section
/-!
SUPPORT. The host's side: which operation a step performs, which command a CMD write starts, and what the two named
register operations do with an index.
-/

namespace Sys2Proof.Machine

@[simp] theorem commandOf_zero (d : PortWord) : commandOf 0#5 d = some (decodeCommand d) := rfl

theorem commandOf_ne_zero {i : RegIndex} (h : i ≠ 0#5) (d : PortWord) : commandOf i d = none := by
  simp [commandOf, h]

theorem perform_cmd (d : PortWord) (s : State) : perform (.regWr 0#5 d) s = exec (decodeCommand d) s := rfl

theorem perform_regWr {i : RegIndex} (h : i ≠ 0#5) (d : PortWord) (s : State) :
    perform (.regWr i d) s = .next (portWrite s i d) := by
  simp [perform, commandOf_ne_zero h, hostRegWr]

theorem step_nil {s : State} (h : s.pending = []) : step s = .next s := by simp [step, h]

theorem step_cons {s : State} {op : HostOp} {ops : List HostOp} (h : s.pending = op :: ops) :
    step s = perform op (s.setPending ops) := by simp [step, h]

/-- An index at or above 18 names no register (R18). -/
theorem regAt_unassigned {i : RegIndex} (h : 18 ≤ i.toNat) : regAt i = none := by
  have : ∀ i : RegIndex, 18 ≤ i.toNat → regAt i = none := by decide
  exact this i h

theorem loadGridFits_iff {s : State} {w h : Nat} {img : List Byte} :
    loadGridFits s w h img = true ↔ w < 2 ^ s.dimBits ∧ h < 2 ^ s.dimBits ∧ img.length = 4 * w * h := by
  simp [loadGridFits, and_assoc]

/-- Everything a port write to an index other than 0 can do: nothing, or one read-write register takes a value. -/
theorem portWrite_cases (s : State) (i : RegIndex) (d : PortWord) :
    portWrite s i d = s ∨
    portWrite s i d = { s with config := d.setWidth 6 } ∨
    portWrite s i d = { s with payLen := d.setWidth 32 } ∨
    portWrite s i d = { s with argK := d } ∨
    portWrite s i d = { s with bitIo := d.setWidth 1 } ∨
    portWrite s i d = { s with argX := dimOf s.dimBits d } ∨
    portWrite s i d = { s with argY := dimOf s.dimBits d } ∨
    portWrite s i d = { s with pixData := d.setWidth 32 } := by
  unfold portWrite
  cases regAt i with
  | none => exact .inl rfl
  | some r => cases r <;> simp [regWrite]

theorem dimOf_lt {dimBits : Nat} (h : dimBits ≤ 30) (d : PortWord) : (dimOf dimBits d).toNat = d.toNat % 2 ^ dimBits := by
  have h1 : d.toNat % 2 ^ dimBits < 2 ^ dimBits := Nat.mod_lt _ (Nat.two_pow_pos _)
  have h2 : 2 ^ dimBits ≤ 2 ^ 30 := Nat.pow_le_pow_right (by decide) h
  rw [dimOf, BitVec.toNat_ofNat, Nat.mod_eq_of_lt (by omega)]

end Sys2Proof.Machine
end

