-- ==== Sys2Proof/Laws/Runs.lean ====
section
/-!
SUPPORT. An operation of the host neither reads nor writes what the host has still to issue: performing it and putting
other operations behind it commute. So a step is the operation, whatever follows it.
-/

namespace Sys2Proof.Machine

/-- An outcome with the host's remaining operations replaced. -/
def withPending (ops : List HostOp) : Host.Outcome State Fault Refusal → Host.Outcome State Fault Refusal
  | .next t => .next (t.setPending ops)
  | .fault f => .fault f
  | .refused r => .refused r

theorem writeCarrier_setPending (ops : List HostOp) (k : Nat) (bits : List Bool) (s : State) :
    writeCarrier k bits (s.setPending ops) = (writeCarrier k bits s).setPending ops := by
  induction bits generalizing k s with
  | nil => rfl
  | cons b bs ih => exact ih (k + 1) (writeCarrierBit k b s)

theorem payWriteRange_setPending (ops : List HostOp) (a : Nat) (bytes : List Byte) (s : State) :
    payWriteRange a bytes (s.setPending ops) = (payWriteRange a bytes s).setPending ops := by
  induction bytes generalizing a s with
  | nil => rfl
  | cons v vs ih => exact ih (a + 1) (payWrite a v s)

theorem payReadRange_setPending (ops : List HostOp) (a n : Nat) (s : State) :
    payReadRange (s.setPending ops) a n = payReadRange s a n := by
  induction n generalizing a with
  | zero => rfl
  | succ n ih =>
    simp only [payReadRange, ih]
    rfl

theorem capacityChecked_setPending (ops : List HostOp) (s : State) {rest}
    (h : ∀ u, rest (u.setPending ops) = withPending ops (rest u)) :
    capacityChecked (s.setPending ops) rest = withPending ops (capacityChecked s rest) := by
  by_cases hc : cap s < need s.payLen.toNat
  · rw [capacityChecked_short hc, capacityChecked_short (s := s.setPending ops) hc]; rfl
  · rw [capacityChecked_fits (Nat.not_lt.1 hc), capacityChecked_fits (s := s.setPending ops) (Nat.not_lt.1 hc)]
    exact h (report (need s.payLen.toNat) (cap s) s)

theorem lengthChecked_setPending (ops : List HostOp) (s : State) {rest}
    (h : ∀ u, rest (u.setPending ops) = withPending ops (rest u)) :
    lengthChecked (s.setPending ops) rest = withPending ops (lengthChecked s rest) := by
  have hd : declaredLength (s.setPending ops) = declaredLength s := declaredLength_congr rfl rfl rfl
  have hc : cap (s.setPending ops) = cap s := rfl
  by_cases h1 : cap s < 32
  · rw [lengthChecked_format h1, lengthChecked_format (s := s.setPending ops) h1]; rfl
  · have h1 := Nat.not_lt.1 h1
    by_cases h2 : cap s < need (declaredLength s).toNat
    · rw [lengthChecked_truncation h1 h2,
        lengthChecked_truncation (s := s.setPending ops) h1 (by rw [hd]; exact h2), hd]
      rfl
    · have h2 := Nat.not_lt.1 h2
      rw [lengthChecked_fits h1 h2, lengthChecked_fits (s := s.setPending ops) h1 (by rw [hd]; exact h2), hd, hc]
      exact h (report (need (declaredLength s).toNat) (cap s) (s.setLenOut (declaredLength s)))

theorem positionChecked_setPending (ops : List HostOp) (s : State) {rest : State → State}
    (h : ∀ u, rest (u.setPending ops) = (rest u).setPending ops) :
    positionChecked (s.setPending ops) rest = withPending ops (positionChecked s rest) := by
  by_cases hk : s.argK.toNat < cap s
  · rw [positionChecked_inside hk, positionChecked_inside (s := s.setPending ops) hk, h]; rfl
  · rw [positionChecked_outside (Nat.not_lt.1 hk), positionChecked_outside (s := s.setPending ops) (Nat.not_lt.1 hk)]
    rfl

theorem exec_setPending (ops : List HostOp) (i : Instr) (s : State) :
    exec i (s.setPending ops) = withPending ops (exec i s) := by
  cases i with
  | nop => rfl
  | illegal101x x => rfl
  | illegal11xx x => rfl
  | check =>
    simp only [exec, execCheck]
    exact capacityChecked_setPending ops s fun u => rfl
  | declen =>
    simp only [exec, execDeclen]
    exact lengthChecked_setPending ops s fun u => rfl
  | embed =>
    simp only [exec, execEmbed]
    refine capacityChecked_setPending ops s fun u => ?_
    rw [payReadRange_setPending, State.setPending_payLen]
    cases payReadRange u 0 u.payLen.toNat with
    | error a => rfl
    | ok bytes => dsimp only; rw [writeCarrier_setPending]; rfl
  | extract =>
    simp only [exec, execExtract]
    refine lengthChecked_setPending ops s fun u => ?_
    rw [payWriteRange_setPending, State.setPending_lenOut,
      messageBytes_congr (s := u) (t := u.setPending ops) rfl rfl rfl]
    rfl
  | map =>
    simp only [exec, execMap]
    exact positionChecked_setPending ops s fun u => rfl
  | wrbit =>
    simp only [exec, execWrbit]
    exact positionChecked_setPending ops s fun u => rfl
  | rdbit =>
    simp only [exec, execRdbit]
    refine positionChecked_setPending ops s fun u => ?_
    rw [State.setPending_argK, cbit_congr (s := u) (t := u.setPending ops) rfl rfl rfl]
    rfl
  | getpix =>
    show execGetpix _ = withPending ops (execGetpix s)
    unfold execGetpix
    dsimp only
    rw [show inRange (s.setPending ops) (s.setPending ops).argX.toNat (s.setPending ops).argY.toNat
      = inRange s s.argX.toNat s.argY.toNat from rfl]
    cases inRange s s.argX.toNat s.argY.toNat <;> rfl
  | setpix =>
    show execSetpix _ = withPending ops (execSetpix s)
    unfold execSetpix
    dsimp only
    rw [show inRange (s.setPending ops) (s.setPending ops).argX.toNat (s.setPending ops).argY.toNat
      = inRange s s.argX.toNat s.argY.toNat from rfl]
    cases inRange s s.argX.toNat s.argY.toNat <;> rfl

/-- What an operation does, it does whatever the host issues after it; an operation leaves that as it is. -/
theorem perform_setPending (ops : List HostOp) (op : HostOp) (s : State) :
    perform op (s.setPending ops) = withPending ops (perform op s) := by
  cases op with
  | regWr i d =>
    by_cases h : i = 0#5
    · subst h; exact exec_setPending ops (decodeCommand d) s
    · rw [perform_regWr h, perform_regWr h]
      unfold portWrite
      cases regAt i with
      | none => rfl
      | some r => cases r <;> rfl
  | regRd i =>
    have : portRead (s.setPending ops) i = portRead s i := by
      unfold portRead
      cases regAt i with
      | none => rfl
      | some r => cases r <;> rfl
    show Host.Outcome.next ((s.setPending ops).addReply (.word (portRead (s.setPending ops) i))) = _
    rw [this]; rfl
  | loadGrid w h img =>
    show hostLoadGrid w h img (s.setPending ops) = withPending ops (hostLoadGrid w h img s)
    unfold hostLoadGrid
    rw [show loadGridFits (s.setPending ops) w h img = loadGridFits s w h img from rfl]
    cases loadGridFits s w h img <;> rfl
  | dumpGrid => rfl
  | payWr a v => rfl
  | payRd a =>
    show hostPayRd a (s.setPending ops) = withPending ops (hostPayRd a s)
    unfold hostPayRd
    rw [show payRead (s.setPending ops) a.toNat = payRead s a.toNat from rfl]
    cases payRead s a.toNat <;> rfl
  | reset => rfl

/-! ## Runs of the machine -/

theorem run_succ (M : Host.Core) (n : Nat) (s : M.State) :
    M.run (n + 1) s =
      match M.step s with
      | .next t => M.run n t
      | .fault r => .fault r
      | .refused r => .refused r := rfl

theorem core_run_next {n : Nat} {s t : State} (h : step s = .next t) : core.run (n + 1) s = core.run n t := by
  have hr := run_succ core n s
  rw [show core.step s = .next t from h] at hr
  exact hr

theorem core_run_fault {n : Nat} {s : State} {f : Fault} (h : step s = .fault f) : core.run (n + 1) s = .fault f := by
  have hr := run_succ core n s
  rw [show core.step s = .fault f from h] at hr
  exact hr

theorem core_run_refused {n : Nat} {s : State} {r : Refusal} (h : step s = .refused r) :
    core.run (n + 1) s = .refused r := by
  have hr := run_succ core n s
  rw [show core.step s = .refused r from h] at hr
  exact hr

end Sys2Proof.Machine
end

