-- ==== Sys2Proof/Tests/Slice0.lean ====
section
/-!
SUPPORT. The model's own tests: what WellFormed refuses, the decoding of every code, single steps against the worked
examples of the rules and the vectors of 95_test_vectors.md (expected values are the spec's), and for every obligation
with hypotheses a state and operands that meet them (`witness_…`), at the boundaries where its clauses meet.
-/

namespace Sys2Proof.Tests

open Sys2Proof Sys2Proof.Machine

/-! ## Helpers -/

/-- A state after RESET and the load of a `w` by `h` grid of one pixel, with a CONFIG. -/
def gridOf (w h : Nat) (config : BitVec 6) (p : Pixel) : State :=
  { State.reset with
    width := BitVec.ofNat 30 w, height := BitVec.ofNat 30 h, config := config, grid := List.replicate (w * h) p }

/-- The outcome is a next state with a property. -/
def nextWith (o : Host.Outcome State Fault Refusal) (p : State → Bool) : Bool :=
  match o with
  | .next t => p t
  | .fault _ => false
  | .refused _ => false

theorem nextWith_exists {o : Host.Outcome State Fault Refusal} {p : State → Bool} (h : nextWith o p = true) :
    ∃ t, o = .next t ∧ p t = true := by
  cases o with
  | next t => exact ⟨t, rfl, h⟩
  | fault f => cases h
  | refused r => cases h

/-- The grid after vector V9: 8 × 5, Green 0xB4 at pixels 31, 32, 34, 37 and 39. -/
def v9Grid : List Pixel :=
  (List.range 40).map (fun p => ⟨0x12, if [31, 32, 34, 37, 39].contains p then 0xB4 else 0x34, 0x56, 0x78⟩)

/-- The state before vector V9. -/
def v9Start : State := { gridOf 8 5 0x17 ⟨0x12, 0x34, 0x56, 0x78⟩ with payLen := 1, payload := [(0, 0xA5)] }

/-- The block after vector V9, with a payload memory that is all unwritten (V15). -/
def v9State : State := { gridOf 8 5 0x17 ⟨0x12, 0x34, 0x56, 0x78⟩ with grid := v9Grid }

/-- 32 × 1 and 31 × 1 grids of (0xFE, 0, 0, 0xFF) (V12, V13), and the 40 × 1 grid of V14. -/
def grid32 : State := gridOf 32 1 0x08 ⟨0xFE, 0, 0, 0xFF⟩
def grid31 : State := gridOf 31 1 0x08 ⟨0xFE, 0, 0, 0xFF⟩
def grid40 : State := gridOf 40 1 0x08 ⟨0x01, 0, 0, 0xFF⟩

/-- The 3 × 2 zero grid with CONFIG 0x31 of the examples of R91 and R92: cap 12. -/
def grid3x2 : State := gridOf 3 2 0x31 ⟨0, 0, 0, 0⟩

/-- The 5 × 3 grid of vectors V17 to V22: cap 45. -/
def grid5x3 : State := gridOf 5 3 0x3D ⟨0, 0, 0, 0⟩

/-- The 2 × 1 grid of the example of R83. -/
def grid2x1 : State := { gridOf 2 1 0x08 ⟨0, 0, 0, 0⟩ with grid := [⟨0, 0, 0, 0⟩, ⟨0x11, 0x22, 0x33, 0x44⟩] }

/-! ## WellFormed refuses what is ill-formed -/

theorem test_wf_load_width : (HostOp.loadGrid (2 ^ 30) 0 []).wellFormed 30 = false := by decide
theorem test_wf_load_height : (HostOp.loadGrid 0 (2 ^ 30) []).wellFormed 30 = false := by decide
theorem test_wf_load_image : (HostOp.loadGrid 2 1 (List.replicate 7 0)).wellFormed 30 = false := by decide
theorem test_wf_load_fits : (HostOp.loadGrid 2 1 (List.replicate 8 0)).wellFormed 30 = true := by decide
theorem test_wf_wr : (Line.wr .argK (2 ^ 64)).wellFormed = false := by decide
theorem test_wf_load_line : (Line.load (2 ^ 32) 1 "IMG").wellFormed = false ∧
    (Line.load 1 (2 ^ 32) "IMG").wellFormed = false := by decide
theorem test_wf_payw : (Line.payw (2 ^ 32) 0).wellFormed = false ∧ (Line.payw 0 256).wellFormed = false := by decide
theorem test_wf_payr : (Line.payr (2 ^ 32)).wellFormed = false := by decide
theorem test_wf_cmd : (Line.cmd (.illegal101x 0)).wellFormed = false ∧
    (Line.cmd (.illegal11xx 3)).wellFormed = false := by decide
theorem test_wf_text : (Line.paywText (2 ^ 32 - 1) "hi").wellFormed = false ∧
    (Line.paywText 0 "é").wellFormed = false := by decide
theorem test_wf_config : (Line.wrcfg 8 true false false).wellFormed = false := by decide

/-! ## Decoding (R76 to R78), the words written out from the table -/

theorem test_decode_control : decodeCommand 0b0000#64 = .nop ∧ decodeCommand 0b1010#64 = .illegal101x 0 ∧
    decodeCommand 0b1011#64 = .illegal101x 1 ∧ decodeCommand 0b1100#64 = .illegal11xx 0 ∧
    decodeCommand 0b1101#64 = .illegal11xx 1 ∧ decodeCommand 0b1110#64 = .illegal11xx 2 ∧
    decodeCommand 0b1111#64 = .illegal11xx 3 := by decide
theorem test_decode_embed : decodeCommand 0b0001#64 = .embed ∧ decodeCommand 0b0011#64 = .check := by decide
theorem test_decode_extract : decodeCommand 0b0010#64 = .extract ∧ decodeCommand 0b0100#64 = .declen := by decide
theorem test_decode_mapping : decodeCommand 0b0101#64 = .map ∧ decodeCommand 0b0110#64 = .wrbit ∧
    decodeCommand 0b0111#64 = .rdbit := by decide
theorem test_decode_pixel : decodeCommand 0b1000#64 = .getpix ∧ decodeCommand 0b1001#64 = .setpix := by decide
/-- V32, V33 -/
theorem test_decode_ignores_high_bits : decodeCommand 0xFFFFFFFFFFFFFFF0#64 = .nop ∧
    decodeCommand 0x0000000000000013#64 = .check := by decide
theorem test_table_rows_disjoint : ∀ op : BitVec 4, (rowsOf op).length = 1 := by decide
theorem test_decode_table_word : decodeTableWord 4 0b1001 = some .setpix ∧ decodeTableWord 8 0xF6 = some .wrbit ∧
    decodeTableWord 72 1 = none := by decide

/-! ## Single steps -/

/-- V30 -/
theorem test_nop : nextWith (exec .nop { State.reset with status := .capacityError })
    (fun t => t == { State.reset with status := .capacityError }) = true := by decide
/-- V31 -/
theorem test_illegal101x : nextWith (exec (.illegal101x 1) grid2x1)
    (fun t => t == { grid2x1 with status := .illegalCommand }) = true := by decide
theorem test_illegal11xx : nextWith (exec (.illegal11xx 3) grid2x1)
    (fun t => t == { grid2x1 with status := .illegalCommand }) = true := by decide

/-- V3 -/
theorem test_check_short : nextWith (exec .check (gridOf 3 3 0x08 ⟨0, 0, 0, 0xFF⟩))
    (fun t => t.status == .capacityError && t.needBits == 32 && t.availBits == 9) = true := by decide
/-- V4 -/
theorem test_check_no_wrap : nextWith (exec .check { gridOf 48 1 0x08 ⟨0, 0, 0, 0⟩ with payLen := 0xFFFFFFFF })
    (fun t => t.status == .capacityError && t.needBits == 34359738392 && t.availBits == 48) = true := by decide

/-- V9 -/
theorem test_embed_fits : nextWith (exec .embed v9Start)
    (fun t => t.status == .ok && t.needBits == 40 && t.availBits == 40 && t.grid == v9Grid) = true := by
  decide +kernel
/-- V6 -/
theorem test_embed_short : nextWith (exec .embed (gridOf 31 1 0x08 ⟨0xFF, 0, 0, 0xFF⟩))
    (fun t => t.status == .capacityError && t.needBits == 32 && t.availBits == 31 &&
      t.grid == List.replicate 31 ⟨0xFF, 0, 0, 0xFF⟩) = true := by decide

/-- V15 -/
theorem test_extract_fits : nextWith (exec .extract v9State)
    (fun t => t.status == .ok && t.lenOut == 1 && t.needBits == 40 && t.availBits == 40 &&
      payRead t 0 == some 0xA5 && payRead t 1 == none) = true := by decide +kernel
/-- V12 -/
theorem test_extract_short : nextWith (exec .extract { grid31 with lenOut := 0xFFFFFFFF })
    (fun t => t.status == .formatError && t.needBits == 32 && t.availBits == 31 && t.lenOut == 0xFFFFFFFF &&
      t.payload == []) = true := by decide

/-- V14 -/
theorem test_declen_truncation : nextWith (exec .declen grid40)
    (fun t => t.status == .truncationError && t.lenOut == 0xFFFFFFFF && t.needBits == 34359738392 &&
      t.availBits == 40) = true := by decide +kernel
/-- R88, corner cases: cap = 32 with a zero header -/
theorem test_declen_zero_header : nextWith (exec .declen grid32)
    (fun t => t.status == .ok && t.lenOut == 0 && t.needBits == 32) = true := by decide +kernel

/-- R91, example -/
theorem test_map : nextWith (exec .map { grid3x2 with argK := 7 })
    (fun t => t.status == .ok && t.mapX == 0 && t.mapY == 1 && t.mapCh == 2 && t.mapBit == 1) = true := by decide
/-- V22 -/
theorem test_map_last : nextWith (exec .map { grid5x3 with argK := 44 })
    (fun t => t.status == .ok && t.mapX == 4 && t.mapY == 2 && t.mapCh == 2 && t.mapBit == 5) = true := by decide

/-- R92, example -/
theorem test_wrbit_sets : nextWith (exec .wrbit { grid3x2 with argK := 7, bitIo := 1 })
    (fun t => t.status == .ok && t.grid == grid3x2.grid.set 3 ⟨0, 0, 2, 0⟩) = true := by decide
/-- V23 -/
theorem test_wrbit_clears : nextWith (exec .wrbit { gridOf 1 1 0x2D ⟨0xFF, 0xFF, 0xFF, 0xFF⟩ with argK := 1 })
    (fun t => t.status == .ok && t.bitIo == 0 && t.grid == [⟨0xFF, 0xFF, 0xDF, 0xFF⟩]) = true := by decide

/-- V24a -/
theorem test_rdbit_one : nextWith (exec .rdbit { v9State with argK := 32 })
    (fun t => t.status == .ok && t.bitIo == 1) = true := by decide +kernel
/-- V24 -/
theorem test_rdbit_outside : nextWith (exec .rdbit { v9State with argK := 40 })
    (fun t => t == { v9State with argK := 40, status := .indexError }) = true := by decide +kernel

/-- R83, example -/
theorem test_getpix : nextWith (exec .getpix { grid2x1 with argX := 1 })
    (fun t => t.status == .ok && t.pixData == 0x44332211) = true := by decide
/-- V27 -/
theorem test_getpix_outside : nextWith (exec .getpix { v9State with argY := 5, pixData := 9 })
    (fun t => t.status == .indexError && t.pixData == 9) = true := by decide
/-- R84, example -/
theorem test_setpix : nextWith (exec .setpix { gridOf 2 1 0x08 ⟨0, 0, 0, 0⟩ with pixData := 0xFF0000AA })
    (fun t => t.status == .ok && t.grid == [⟨0xAA, 0, 0, 0xFF⟩, ⟨0, 0, 0, 0⟩]) = true := by decide
/-- V28a -/
theorem test_setpix_no_grid : nextWith (exec .setpix State.reset) (fun t => t.status == .indexError) = true := by decide

/-! ## The host port, the notation and the step -/

/-- V34, V38 -/
theorem test_port_low_bits : nextWith (perform (.regWr 2 0xFFFFFFFFFFFFFFC8) grid2x1) (fun t => t.config == 0x08) ∧
    nextWith (perform (.regWr 10 3) grid2x1) (fun t => t.bitIo == 1) := by decide
/-- V35, V36, V37 -/
theorem test_port_reads : nextWith (perform (.regWr 8 5) grid2x1) (fun t => t == grid2x1) ∧
    portRead grid2x1 20 = 0 ∧ portRead grid2x1 0 = 0 ∧ portRead grid2x1 3 = 2 := by decide
/-- R51, R44: the image of the grid of R83's example -/
theorem test_dump : nextWith (perform .dumpGrid grid2x1)
    (fun t => t.replies == [.image [0, 0, 0, 0, 0x11, 0x22, 0x33, 0x44]]) = true := by decide
/-- R81, R82, program P3 lines 3 and 4 -/
theorem test_program_records :
    ((readProgram ["wrcfg 7, RGB ; comment".toList, "payw 0, \"hi\"".toList]).bind (encodeProgram [])) =
      some ["W 02 000000000000003F".toList, "P 00000000 68".toList, "P 00000001 69".toList] := by decide +kernel
/-- R20, R78: a CMD write of 0x13 is a CHECK, on the 0 × 0 grid of V1 -/
theorem test_step_runs_check : nextWith (step (State.reset.withFetchWord 8 0x13))
    (fun t => t.status == .capacityError && t.needBits == 32 && t.availBits == 0) = true := by decide
theorem test_step_idle : nextWith (step State.reset) (fun t => t == State.reset) = true := by decide

/-! ## Witnesses: the hypotheses of the obligations can be met -/

/-- need(1) = 40 = cap: the capacity boundary, every hypothesis of the embed statements at once. -/
theorem witness_EmbedWritesTheFrame : v9Start.GridFull ∧ v9Start.PayloadReady ∧
    32 + 8 * v9Start.payLen.toNat = cap v9Start ∧ payRead v9Start 0 = some 0xA5 ∧
    (∀ k < 32 + 8 * v9Start.payLen.toNat, mapPos v9Start k ≠ ⟨0, 0, .g, 6⟩) := by
  refine ⟨by decide, by unfold State.PayloadReady; decide, by decide, by decide, by decide⟩
theorem witness_EmbedWritesTheFrame_short :
    cap { v9Start with payLen := 2 } < 32 + 8 * ({ v9Start with payLen := 2 } : State).payLen.toNat := by decide
theorem witness_EmbedWritesTheFrame_unwritten : ¬ { v9Start with payload := [] }.PayloadReady ∧
    32 + 8 * ({ v9Start with payload := [] } : State).payLen.toNat ≤ cap { v9Start with payload := [] } := by
  refine ⟨by unfold State.PayloadReady; decide, by decide⟩

/-- An EMBED that ends with OK, and one that ends with CAPACITY_ERROR. -/
theorem witness_EmbedInvariances_ok : v9Start.GridFull ∧ ∃ t, exec .embed v9Start = .next t ∧ t.status = .ok := by
  refine ⟨by decide, ?_⟩
  obtain ⟨t, h, ht⟩ := nextWith_exists (o := exec .embed v9Start) (p := fun t => t.status == .ok) (by decide +kernel)
  exact ⟨t, h, by simpa using ht⟩
theorem witness_EmbedInvariances_error : ∃ t, exec .embed grid31 = .next t ∧ t.status = .capacityError := by
  obtain ⟨t, h, ht⟩ := nextWith_exists (o := exec .embed grid31) (p := fun t => t.status == .capacityError) (by decide)
  exact ⟨t, h, by simpa using ht⟩
theorem witness_EmbedInvariances_exact : v9Start.PayloadReady ∧ need v9Start.payLen.toNat = cap v9Start := by
  refine ⟨by unfold State.PayloadReady; decide, by decide⟩
theorem witness_EmbedInvariances_oneShort : need grid31.payLen.toNat = cap grid31 + 1 := by decide
/-- Positions 31 and 32, the last of the frame and the first after it, on a grid with room to spare. -/
theorem witness_EmbedInvariances_after : need grid40.payLen.toNat ≤ 32 ∧ 32 < cap grid40 ∧ 31 < need grid40.payLen.toNat := by
  decide
theorem witness_EmbedInvariances_bytes : ([0xA5] : List Byte).length = v9Start.payLen.toNat ∧
    ∀ i < v9Start.payLen.toNat, payRead v9Start i = ([0xA5] : List Byte)[i]? := by decide

theorem witness_CommandDecodeEncodeRoundTrip : Instr.embed.wellFormed = true ∧
    (0xFFFFFFFFFFFFFFF1#64).extractLsb' 0 4 = encode .embed := by decide
theorem witness_IgnoredCommandBitsChangeNothing :
    (0xF1#64).extractLsb' 0 4 = (0x1#64).extractLsb' 0 4 ∧ (0xF1#64).extractLsb' 0 4 = 1#4 := by decide
theorem witness_HostRecordRoundTrip : recordOf (.regRd 1) = some "R 01".toList ∧
    (HostOp.loadGrid (2 ^ 30 - 1) 0 []).wellFormed 30 = true := by decide
theorem witness_PseudoOperationsExpand : (Line.cmd .setpix).wellFormed = true ∧ 7 < 8 ∧
    (Line.paywText (2 ^ 32 - 1) "h").wellFormed = true ∧ "h".toList[0]? = some 'h' := by decide
theorem witness_ProgramRecordsReadBack :
    encodeProgram [] [.cmd .embed] = some ["W 00 0000000000000001".toList] := by decide
theorem witness_StepRunsTheDecodedCommand :
    (State.reset.withProgram [.regWr 0 3, .dumpGrid]).pending = [.regWr 0 3, .dumpGrid] ∧
    (Instr.illegal11xx 3).wellFormed = true := by decide
theorem witness_OperationsRunInIssueOrder : State.reset.pending = [] ∧
    (grid2x1.withProgram [.dumpGrid, .reset]).pending = [.dumpGrid, .reset] ∧
    ∃ t, step (grid2x1.withProgram [.dumpGrid, .reset]) = .next t := ⟨by decide, by decide, _, rfl⟩
/-- The three stops: an unwritten cell read by the host and by EMBED, and a LOAD_GRID that does not fit. -/
theorem witness_ModelStopsExactlyWhereTheSpecDoes :
    perform (.payRd 7) State.reset = .fault (.uninitPayload 7) ∧
    perform (.regWr 0 1) { v9Start with payload := [] } = .fault (.uninitPayload 0) ∧
    perform (.loadGrid 0 (2 ^ 30) []) State.reset = .refused .loadGridDoesNotFit := ⟨rfl, rfl, rfl⟩
theorem v9State_wf : v9State.Wf := by
  refine ⟨?_, ?_, ?_, ?_, ?_, ?_, ?_, ?_, ?_, ?_, ?_, ?_, ?_, ?_⟩ <;> decide
theorem witness_EveryStepKeepsTheInvariant : v9State.Wf ∧ ∃ t, step (v9State.withProgram [.regWr 0 2]) = .next t := by
  obtain ⟨t, h, -⟩ := nextWith_exists test_extract_fits
  exact ⟨v9State_wf, t, h⟩

theorem witness_PortReadsZeroExtendedRegisters : 18 ≤ (18#5).toNat ∧ 18 ≤ (31#5).toNat := by decide
/-- Every read-write register, at both ends of DIM_BITS. -/
theorem witness_PortWriteStoresTheLowBits : 1 ≤ State.reset.dimBits ∧ State.reset.dimBits ≤ 30 ∧
    (12#5, State.reset.dimBits) ∈ [(2#5, 6), (5#5, 32), (9#5, 64), (10#5, 1), (11#5, State.reset.dimBits),
      (12#5, State.reset.dimBits), (13#5, 32)] ∧
    nextWith (perform (.regWr 11 3) { State.reset with dimBits := 1 }) (fun t => portRead t 11 == 1) = true := by decide
theorem witness_ReadOnlyAndUnassignedWritesAreIgnored :
    17#5 ∈ [1#5, 3#5, 4#5, 6#5, 7#5, 8#5, 14#5, 15#5, 16#5, 17#5] ∧ 18 ≤ (18#5).toNat := by decide
theorem witness_GridByteImageLayout : State.reset.dimBits ≤ 30 ∧ 2 < 2 ^ State.reset.dimBits ∧
    1 < 2 ^ State.reset.dimBits ∧ (List.replicate 8 (0 : Byte)).length = 4 * 2 * 1 ∧ grid2x1.GridFull := by decide
/-- The largest width a grid can have, beside no rows. -/
theorem witness_GridByteImageLayout_edge : 2 ^ 30 - 1 < 2 ^ State.reset.dimBits ∧ 0 < 2 ^ State.reset.dimBits ∧
    ([] : List Byte).length = 4 * (2 ^ 30 - 1) * 0 := by decide
/-- V39, V40 -/
theorem witness_UnfitLoadGridIsRefused : 2 ^ State.reset.dimBits ≤ 2 ^ 30 ∧
    (List.replicate 7 (0 : Byte)).length ≠ 4 * 2 * 1 := by decide
/-- V11: cell 0 written, cell 1 not, need = cap. -/
theorem witness_UnwrittenPayloadReadsFault :
    let s : State := { gridOf 48 1 0x08 ⟨0, 0, 0, 0⟩ with payLen := 2, payload := [(0, 0x68)] }
    need s.payLen.toNat = cap s ∧ 1 < s.payLen.toNat ∧ payRead s 1 = none ∧ (∀ b < 1, payRead s b ≠ none) := by decide
theorem witness_UnwrittenPayloadReadsFault_short : cap grid31 < need grid31.payLen.toNat := by decide

theorem witness_CountsAreExactAndFit : State.reset.width = 0 ∧ ctList { grid2x1 with config := 0x07 } = [] := by decide
/-- V22, V22a: k = cap − 1 is the last position. -/
theorem witness_TraversalMapIsARowMajorBijection : 43 < 44 ∧ 44 < cap grid5x3 ∧ cap grid5x3 = 45 ∧
    4 < grid5x3.width.toNat ∧ 2 < grid5x3.height.toNat ∧ Channel.b ∈ ctList grid5x3 := by decide
theorem witness_BitWriterAndReader : 7 < 8 ∧ (0 : Nat) < 8 := by decide
theorem witness_EnvelopeIsTheWireFormat : ([0x68, 0x69] : List Byte).length = (2#32).toNat ∧
    ([0x68, 0x69] : List Byte)[1]? = some 0x69 ∧ 7 < 8 := by decide
theorem witness_CarrierBitsDecodeBySums : 32 ≤ cap grid32 ∧ 31 < cap grid32 ∧ need (0 + 1) ≤ cap v9State := by decide
theorem witness_PixelWriteChangesOneChannel : grid2x1.GridFull ∧ 1 < grid2x1.width.toNat ∧ 0 < grid2x1.height.toNat ∧
    ((1, 0, Channel.a) : Nat × Nat × Channel) ≠ (1, 0, .r) := by decide
theorem witness_CarrierWritesCommute : 0 < cap grid3x2 ∧ 11 < cap grid3x2 ∧ cap grid3x2 = 12 ∧ (0 : Nat) ≠ 11 := by decide

/-- The last pixel is in range; x = WIDTH and y = HEIGHT are not. -/
theorem witness_GetpixReadsThePixel : ({ grid2x1 with argX := 1 } : State).argX.toNat < grid2x1.width.toNat ∧
    grid2x1.argY.toNat < grid2x1.height.toNat ∧
    grid2x1.width.toNat ≤ ({ grid2x1 with argX := 2 } : State).argX.toNat ∧
    grid2x1.height.toNat ≤ ({ grid2x1 with argY := 1 } : State).argY.toNat := by decide
theorem witness_SetpixWritesThePixel : grid2x1.GridFull ∧ grid2x1.argX.toNat < grid2x1.width.toNat ∧
    grid2x1.argY.toNat < grid2x1.height.toNat ∧ ((1, 0) : Nat × Nat) ≠ (grid2x1.argX.toNat, grid2x1.argY.toNat) := by
  decide
theorem witness_GetpixAfterSetpixReadsBack : grid2x1.GridFull ∧
    ∃ t, exec .setpix grid2x1 = .next t ∧ t.status = .ok := by
  refine ⟨by decide, ?_⟩
  obtain ⟨t, h, ht⟩ := nextWith_exists (o := exec .setpix grid2x1) (p := fun t => t.status == .ok) (by decide)
  exact ⟨t, h, by simpa using ht⟩
/-- k = cap is out of range; EMBED without room ends with its own error. -/
theorem witness_IndexErrorRecordsOnlyStatus :
    grid2x1.width.toNat ≤ ({ grid2x1 with argX := 2 } : State).argX.toNat ∧
    cap grid3x2 ≤ ({ grid3x2 with argK := 12 } : State).argK.toNat ∧
    (∃ t, exec .map { grid3x2 with argK := 12 } = .next t ∧ t.status = .indexError) ∧
    ∃ t, exec .embed grid31 = .next t := by
  refine ⟨by decide, by decide, ?_, ?_⟩
  · obtain ⟨t, h, ht⟩ := nextWith_exists (o := exec .map { grid3x2 with argK := 12 })
      (p := fun t => t.status == .indexError) (by decide)
    exact ⟨t, h, by simpa using ht⟩
  · obtain ⟨t, h, -⟩ := witness_EmbedInvariances_error
    exact ⟨t, h⟩

/-- need = cap + 1 is an error, need = cap is not. -/
theorem witness_CheckReportsTheCapacityTest : cap grid31 + 1 = 32 + 8 * grid31.payLen.toNat ∧
    32 + 8 * grid32.payLen.toNat = cap grid32 := by decide
theorem witness_CapacityErrorReportsBothCounts : cap grid31 < 32 + 8 * grid31.payLen.toNat := by decide
/-- cap = 31 and cap = 32; a header that fits and one that does not. -/
theorem witness_DeclenDecodesTheHeader : cap grid31 = 31 ∧ cap grid32 = 32 ∧
    32 + 8 * (declaredLength grid32).toNat = cap grid32 ∧ cap grid40 < 32 + 8 * (declaredLength grid40).toNat := by
  decide +kernel
theorem witness_ExtractRecoversTheMessage : cap grid31 < 32 ∧ 32 ≤ cap v9State ∧
    32 + 8 * (declaredLength v9State).toNat = cap v9State ∧ 0 < (declaredLength v9State).toNat := by decide +kernel
theorem witness_FormatErrorExactlyWithoutHeaderRoom : cap grid31 < 32 ∧
    ∃ t, exec .extract grid31 = .next t ∧ t.status = .formatError := by
  refine ⟨by decide, ?_⟩
  obtain ⟨t, h, ht⟩ := nextWith_exists (o := exec .extract grid31) (p := fun t => t.status == .formatError) (by decide)
  exact ⟨t, h, by simpa using ht⟩
theorem witness_TruncationErrorReportsTheLength : 32 ≤ cap grid40 ∧ cap grid40 < need (declaredLength grid40).toNat := by
  decide +kernel
/-- The state after the EMBED is itself a state with its grid, dimensions and CONFIG. -/
theorem witness_ExtractAfterEmbedRoundTrip : v9Start.GridFull ∧ ∃ t u : State, exec .embed v9Start = .next t ∧ t.status = .ok ∧
    u.grid = t.grid ∧ u.width = t.width ∧ u.height = t.height ∧ u.config = t.config ∧ u.payload = [] := by
  obtain ⟨hg, t, h, ht⟩ := witness_EmbedInvariances_ok
  exact ⟨hg, t, { t with payload := [] }, h, ht, rfl, rfl, rfl, rfl, rfl⟩
theorem witness_ReadsAreIdempotent : v9State.Wf ∧ (∃ t, exec .extract v9State = .next t) ∧
    (∃ t, perform (.regRd 1) v9State = .next t) ∧ (∃ t, perform .dumpGrid v9State = .next t) ∧
    (∃ t, perform (.payRd 0) v9Start = .next t) ∧ ∃ t, exec .check v9State = .next t := by
  obtain ⟨t, h, -⟩ := nextWith_exists test_extract_fits
  exact ⟨v9State_wf, ⟨t, h⟩, ⟨_, rfl⟩, ⟨_, rfl⟩, ⟨_, rfl⟩, ⟨_, rfl⟩⟩
/-- 32 of 33 positions carry the header: the two grids differ in the last pixel only. -/
theorem witness_ExtractReadsOnlyTheFrame :
    let s : State := gridOf 33 1 0x08 ⟨0xFE, 0, 0, 0xFF⟩
    let u : State := { s with grid := s.grid.set 32 ⟨0xFF, 0, 0, 0xFF⟩ }
    (∀ k < cap s, k < need (declaredLength s).toNat → cbit u k = cbit s k) ∧ cbit u 32 ≠ cbit s 32 ∧
    need (declaredLength s).toNat = 32 := by decide +kernel

/-- k = cap − 1 and k = cap. -/
theorem witness_MapWritesThePosition : ({ grid5x3 with argK := 44 } : State).argK.toNat < cap grid5x3 ∧
    cap grid5x3 ≤ ({ grid5x3 with argK := 45 } : State).argK.toNat := by decide
theorem witness_WrbitWritesOneCarrierBit : grid3x2.GridFull ∧
    ({ grid3x2 with argK := 11 } : State).argK.toNat < cap grid3x2 ∧
    cap grid3x2 ≤ ({ grid3x2 with argK := 12 } : State).argK.toNat ∧ mapPos grid3x2 11 ≠ ⟨2, 1, .b, 0⟩ := by decide
theorem witness_RdbitReadsOneCarrierBit : grid3x2.GridFull ∧ grid3x2.argK.toNat < cap grid3x2 ∧
    cap grid3x2 ≤ ({ grid3x2 with argK := 12 } : State).argK.toNat ∧ ∃ t, exec .wrbit grid3x2 = .next t :=
  ⟨by decide, by decide, by decide, _, rfl⟩

theorem witness_ErrorsArePrecise : Instr.extract ≠ .nop ∧ ∃ t, exec .extract grid31 = .next t ∧ t.status ≠ .ok := by
  obtain ⟨-, t, h, ht⟩ := witness_FormatErrorExactlyWithoutHeaderRoom
  exact ⟨by decide, t, h, by simp [ht]⟩
theorem witness_CommandsWriteOnlyTheirRegisters : (∃ t, exec .nop grid2x1 = .next t) ∧
    ∃ t, exec .setpix grid2x1 = .next t := ⟨⟨_, rfl⟩, _, rfl⟩
theorem witness_OnlyNamedOperationsChangeTheGrid : (∃ t, perform (.regWr 0 8) grid2x1 = .next t) ∧
    decodeCommand 8#64 ≠ .embed ∧ decodeCommand 8#64 ≠ .wrbit ∧ decodeCommand 8#64 ≠ .setpix ∧
    ∃ t, perform .reset grid2x1 = .next t := ⟨⟨_, rfl⟩, by decide, by decide, by decide, _, rfl⟩
theorem witness_OnlyNamedOperationsChangeThePayload : (∃ t, perform (.regWr 0 9) grid2x1 = .next t) ∧
    decodeCommand 9#64 ≠ .extract := ⟨⟨_, rfl⟩, by decide⟩
theorem witness_OnlySetpixWritesAlpha : grid2x1.GridFull ∧ Instr.wrbit ≠ .setpix ∧
    (∃ t, exec .wrbit grid2x1 = .next t) ∧ 1 < grid2x1.width.toNat ∧ 0 < grid2x1.height.toNat :=
  ⟨by decide, by decide, ⟨_, rfl⟩, by decide, by decide⟩
theorem witness_StatusIsWrittenByCommandsOnly : (∃ t, perform (.payWr 0 1) grid2x1 = .next t) ∧
    (∃ t, exec .getpix grid2x1 = .next t) ∧ Instr.getpix ≠ .nop := ⟨⟨_, rfl⟩, ⟨_, rfl⟩, by decide⟩
theorem witness_CommandsWithoutAGridRaiseTheirErrors : State.reset.width = 0 ∧ State.reset.height = 0 := by decide

end Sys2Proof.Tests
end

section
/-!
SUPPORT. The memories (20_memory.md): the PIX_DATA packing, the grid and its byte image, the Channel Target and the
traversal map, bits and bitstreams, and which operations change a memory at all. The obligations of that family (O19,
O23 to O27, O29, O30, O48, O55) are settled here.
-/

namespace Sys2Proof.Machine

/-! ## The grid and its byte image (R43, R44) -/

/-- Byte 4·p + c of the image of a full grid is what `PixRead` gives at pixel p (R44). -/
theorem imageOfPixels_getElem?_pixRead {s : State} (hg : s.GridFull) {x y : Nat} (hx : x < s.width.toNat)
    (hy : y < s.height.toNat) (c : Channel) :
    (imageOfPixels s.grid)[4 * (y * s.width.toNat + x) + channelIndex c]? = some (pixRead s x y c) := by
  have hlt : pixelIndex s x y < s.grid.length := hg ▸ rowMajor_lt hx hy
  rw [imageOfPixels_getElem?, pixRead, ← pixelIndex, List.getElem?_eq_getElem hlt]
  rfl

/-- The state a LOAD_GRID that fits leaves: the dimensions exactly, the pixels of the image, nothing else changed
(R17, R131). -/
theorem perform_loadGrid_fits {s : State} {w h : Nat} {img : List Byte} (hd : s.dimBits ≤ 30)
    (hw : w < 2 ^ s.dimBits) (hh : h < 2 ^ s.dimBits) (hl : img.length = 4 * w * h) :
    ∃ t, perform (.loadGrid w h img) s = .next t ∧
      t = { s with width := t.width, height := t.height, grid := t.grid } ∧
      t.width.toNat = w ∧ t.height.toNat = h ∧ t.grid = pixelsOfImage img := by
  have hpow : 2 ^ s.dimBits ≤ 2 ^ 30 := Nat.pow_le_pow_right (by decide) hd
  refine ⟨{ s with width := BitVec.ofNat 30 w, height := BitVec.ofNat 30 h, grid := pixelsOfImage img },
    ?_, rfl, ?_, ?_, rfl⟩
  · simp only [perform, hostLoadGrid, loadGridFits_iff.2 ⟨hw, hh, hl⟩, if_true]
  · exact Nat.mod_eq_of_lt (Nat.lt_of_lt_of_le hw hpow)
  · exact Nat.mod_eq_of_lt (Nat.lt_of_lt_of_le hh hpow)

/-- DUMP_GRID returns the byte image of the grid and changes nothing else (R17, R44). -/
theorem perform_dumpGrid (s : State) :
    perform .dumpGrid s = .next { s with replies := s.replies ++ [.image (imageOfPixels s.grid)] } := rfl

/-- Settles O19: a full grid is dumped byte by byte as `PixRead` reads it, and the image of the pixels of an image is that
image, so what LOAD_GRID took is what DUMP_GRID returns. -/
theorem gridByteImageLayout : Obligations.GridByteImageLayout := by
  unfold Obligations.GridByteImageLayout
  refine ⟨fun s w h img hd hw hh hl => ?_, fun s hg => ?_⟩
  · obtain ⟨t, ht, hframe, rfl, rfl, hgrid⟩ := perform_loadGrid_fits hd hw hh hl
    rw [Nat.mul_assoc] at hl
    have hfull : t.GridFull := (congrArg List.length hgrid).trans (pixelsOfImage_length hl)
    have himg : imageOfPixels t.grid = img := hgrid ▸ imageOfPixels_pixelsOfImage hl
    refine ⟨t, ht, hframe, rfl, rfl, hfull, fun x y c hx hy => ?_, ?_⟩
    · rw [← himg]
      exact imageOfPixels_getElem?_pixRead hfull hx hy c
    · rw [perform_dumpGrid, himg]
  · refine ⟨_, perform_dumpGrid s, ?_, fun x y c hx hy => imageOfPixels_getElem?_pixRead hg hx hy c⟩
    rw [imageOfPixels_length, hg, Nat.mul_assoc]

/-- Settles O29: on a full grid a pixel write is read back at its own coordinate and channel only. -/
theorem pixelWriteChangesOneChannel : Obligations.PixelWriteChangesOneChannel := by
  unfold Obligations.PixelWriteChangesOneChannel
  intro s x y c v hg hx hy
  refine ⟨?_, fun x' y' c' hx' _ hne => ?_, pixWrite_eq x y c v s, ?_⟩
  · rw [pixRead_pixWrite_inRange hg hx hy hx, if_pos ⟨rfl, rfl, rfl⟩]
  · rw [pixRead_pixWrite_inRange hg hx hy hx', if_neg]
    rintro ⟨rfl, rfl, rfl⟩
    exact hne rfl
  · rw [State.GridFull, pixWrite_grid_length]
    exact hg

/-! ## The PIX_DATA packing (R51) -/

/-- Unpacking undoes packing: the other three channels lie outside the eight bits of each one (R51). -/
theorem unpackChannel_packPixel (r g b a : Byte) (c : Channel) :
    unpackChannel (packPixel r g b a) c = pixelGet ⟨r, g, b, a⟩ c := by
  ext j hj
  have high : ∀ (v : Byte) (k : Nat), 8 ≤ k → v.getLsbD (k + j) = false :=
    fun v k hk => BitVec.getLsbD_of_ge v _ (by omega)
  cases c with
  | r =>
    simp [unpackChannel, packPixel, pixelGet, hj, show j < 16 by omega, show j < 24 by omega, show j < 32 by omega]
  | g =>
    simp [unpackChannel, packPixel, pixelGet, hj, show 8 + j < 16 by omega, show 8 + j < 24 by omega,
      show 8 + j < 32 by omega]
  | b =>
    simp [unpackChannel, packPixel, pixelGet, hj, high, show 16 + j < 24 by omega, show 16 + j < 32 by omega,
      show 16 + j - 8 = 8 + j by omega]
  | a =>
    simp [unpackChannel, packPixel, pixelGet, hj, high, show 24 + j < 32 by omega, show 24 + j - 8 = 16 + j by omega,
      show 24 + j - 16 = 8 + j by omega]

/-- A 32-bit word is the sum of its four channels at their places. -/
theorem toNat_eq_sum_unpackChannel (d : BitVec 32) :
    d.toNat = (unpackChannel d .a).toNat * 2 ^ 24 + (unpackChannel d .b).toNat * 2 ^ 16 +
      (unpackChannel d .g).toNat * 2 ^ 8 + (unpackChannel d .r).toNat := by
  have hd := d.isLt
  simp only [unpackChannel, BitVec.extractLsb'_toNat, Nat.shiftRight_eq_div_pow]
  omega

/-- The value of a packed pixel (R51). -/
theorem toNat_packPixel (r g b a : Byte) :
    (packPixel r g b a).toNat = a.toNat * 2 ^ 24 + b.toNat * 2 ^ 16 + g.toNat * 2 ^ 8 + r.toNat := by
  rw [toNat_eq_sum_unpackChannel]
  simp only [unpackChannel_packPixel, pixelGet]

theorem packPixel_unpackChannel (d : BitVec 32) :
    packPixel (unpackChannel d .r) (unpackChannel d .g) (unpackChannel d .b) (unpackChannel d .a) = d :=
  BitVec.eq_of_toNat_eq ((toNat_packPixel ..).trans (toNat_eq_sum_unpackChannel d).symm)

/-- Settles O30: unpacking undoes packing bit by bit, a word is the sum of its channels, and so packing undoes
unpacking. -/
theorem pixelPackingIsInvertible : Obligations.PixelPackingIsInvertible := by
  unfold Obligations.PixelPackingIsInvertible
  refine ⟨fun r g b a => ?_, packPixel_unpackChannel⟩
  have unpack := unpackChannel_packPixel r g b a
  exact ⟨toNat_packPixel r g b a, unpack .r, unpack .g, unpack .b, unpack .a⟩

/-! ## The Channel Target and the traversal map (R56 to R59) -/

/-- A channel is a target exactly when its enable bit in CONFIG is 1 (R56). -/
theorem mem_ctList_iff (s : State) :
    (.r ∈ ctList s ↔ ctR s = true) ∧ (.g ∈ ctList s ↔ ctG s = true) ∧ (.b ∈ ctList s ↔ ctB s = true) := by
  unfold ctList
  cases ctR s <;> cases ctG s <;> cases ctB s <;> simp

/-- Settles O23, by the eight values of the enable bits. -/
theorem channelTargetListIsOrdered : Obligations.ChannelTargetListIsOrdered := by
  unfold Obligations.ChannelTargetListIsOrdered
  intro s
  obtain ⟨hr, hg, hb⟩ := mem_ctList_iff s
  exact ⟨hr, hg, hb, alpha_not_mem_ctList s, ctList_ordered s, ctList_length s⟩

/-- Settles O24: the count is the length of the channel list, and the widths of the registers bound both counts. -/
theorem countsAreExactAndFit : Obligations.CountsAreExactAndFit := by
  unfold Obligations.CountsAreExactAndFit
  refine ⟨fun s => ⟨?_, cap_lt s, ?_⟩, fun len => ⟨rfl, need_le len⟩, rfl⟩
  · rw [cap, ctList_length]
    rfl
  · rintro (h | h | h) <;> simp [cap, h]

/-- In rows of `w` places, row and column of a place are the quotient and the remainder of its number. -/
theorem rowMajor_div_mod {w x : Nat} (y : Nat) (hx : x < w) : (y * w + x) / w = y ∧ (y * w + x) % w = x :=
  (Nat.div_mod_unique (by omega)).2 ⟨by ring, hx⟩

/-- Position p·n + j, with j below n, is pixel p and channel j of the list (R57). -/
theorem mapPos_mul_add {s : State} {j : Nat} {c : Channel} (p : Nat) (hj : (ctList s)[j]? = some c) :
    mapPos s (p * (ctList s).length + j) = ⟨p % s.width.toNat, p / s.width.toNat, c, bitIndex s⟩ := by
  obtain ⟨hlt, rfl⟩ := List.getElem?_eq_some_iff.1 hj
  obtain ⟨hdiv, hmod⟩ := rowMajor_div_mod p hlt
  simp [mapPos, hdiv, hmod, hlt]

/-- Every target channel of every in-range coordinate has its position below the capacity (R57). -/
theorem mapPos_surjective {s : State} {x y : Nat} {c : Channel} (hx : x < s.width.toNat) (hy : y < s.height.toNat)
    (hc : c ∈ ctList s) : ∃ k, k < cap s ∧ mapPos s k = ⟨x, y, c, bitIndex s⟩ := by
  obtain ⟨j, hj⟩ := List.mem_iff_getElem?.1 hc
  obtain ⟨hlt, -⟩ := List.getElem?_eq_some_iff.1 hj
  refine ⟨pixelIndex s x y * (ctList s).length + j, ?_, ?_⟩
  · exact Nat.lt_of_lt_of_eq (rowMajor_lt hlt (rowMajor_lt hx hy)) (Nat.mul_comm ..)
  · obtain ⟨hdiv, hmod⟩ := rowMajor_div_mod y hx
    rw [mapPos_mul_add _ hj, pixelIndex, hdiv, hmod]

/-- Positions visit the pixels in ascending pixel index and, within one pixel, the channels in list order (R57). -/
theorem mapPos_ascending {s : State} {k l : Nat} (hkl : k < l) (hl : l < cap s) :
    pixelIndex s (mapPos s k).x (mapPos s k).y < pixelIndex s (mapPos s l).x (mapPos s l).y ∨
    (pixelIndex s (mapPos s k).x (mapPos s k).y = pixelIndex s (mapPos s l).x (mapPos s l).y ∧
      channelIndex (mapPos s k).ch < channelIndex (mapPos s l).ch) := by
  obtain ⟨_, _, _, _, hck, hpk⟩ := mapPos_spec (Nat.lt_trans hkl hl)
  obtain ⟨_, _, _, _, hcl, hpl⟩ := mapPos_spec hl
  rw [hpk, hpl]
  rcases Nat.lt_or_eq_of_le (Nat.div_le_div_right (c := (ctList s).length) (Nat.le_of_lt hkl)) with hlt | heq
  · exact .inl hlt
  · have hmod : k % (ctList s).length < l % (ctList s).length := by
      have hk := Nat.div_add_mod k (ctList s).length
      have hl := Nat.div_add_mod l (ctList s).length
      rw [heq] at hk
      omega
    exact .inr ⟨heq, ctList_getElem?_lt hck hcl hmod⟩

/-- Settles O25: the formulas and the range from `mapPos_spec`, one-to-one from `mapPos_inj`, onto from
`mapPos_surjective`, and the order from `mapPos_ascending`. -/
theorem traversalMapIsARowMajorBijection : Obligations.TraversalMapIsARowMajorBijection := by
  unfold Obligations.TraversalMapIsARowMajorBijection
  intro s
  refine ⟨fun k hk => ?_, fun k l hk hl h => ?_, fun x y c hx hy hc => mapPos_surjective hx hy hc,
    fun k l hkl hl => mapPos_ascending hkl hl⟩
  · obtain ⟨_, _, hx, hy, hc, _⟩ := mapPos_spec hk
    exact ⟨rfl, rfl, hc, bitIndex_eq s, hx, hy⟩
  · exact mapPos_inj hk hl (congrArg Position.x h) (congrArg Position.y h) (congrArg Position.ch h)

/-! ## Bits and bitstreams (R54, R55, R60, R61) -/

/-- Settles O26: `rbit` is the bit, and the bits of `wbit` are known one by one. -/
theorem bitWriterAndReader : Obligations.BitWriterAndReader := by
  unfold Obligations.BitWriterAndReader
  intro v i b hi
  refine ⟨fun j _ => getLsbD_wbit v i j b hi, wbit_self v i hi, rbit_eq_getLsbD v i, ?_⟩
  rw [rbit_eq_getLsbD, getLsbD_wbit v i i b hi, if_pos rfl]

/-- Settles O27: the frame is the bitstream of four length bytes and the message. -/
theorem envelopeIsTheWireFormat : Obligations.EnvelopeIsTheWireFormat := by
  unfold Obligations.EnvelopeIsTheWireFormat
  refine ⟨fun bytes => ⟨bitsOf_length bytes, bitsOf_getElem? bytes⟩, fun len bytes hl => ⟨?_, ?_, ?_⟩⟩
  · rw [envelope_length, hl]
  · exact envelope_header len bytes
  · exact envelope_message len bytes

/-! ## Which operations change a memory (R45, R49, R71) -/

/-- No command changes CONFIG or the dimensions (R18, R45); only EMBED, WRBIT and SETPIX change a pixel (R45), and only
EXTRACT a payload cell (R49). -/
theorem exec_memory_frame {i : Instr} {s t : State} (h : exec i s = .next t) :
    t.config = s.config ∧ t.width = s.width ∧ t.height = s.height ∧
    (i ≠ .embed → i ≠ .wrbit → i ≠ .setpix → t.grid = s.grid) ∧ (i ≠ .extract → t.payload = s.payload) := by
  rcases exec_next_cases h with ⟨-, rfl⟩ | ⟨e, -, rfl⟩ | ⟨-, -, rfl⟩ | ⟨-, -, rfl⟩ | ⟨-, -, -, rfl⟩ | ⟨-, -, rfl⟩ |
    ⟨rfl, -, _, g, -, -, -, -, rfl⟩ | ⟨-, -, -, rfl⟩ | ⟨rfl, -, -, m, -, rfl⟩ | ⟨-, -, -, d, rfl⟩ |
    ⟨rfl, -, -, g, -, -, rfl⟩ | ⟨-, -, x, y, c, j, rfl, -⟩ | ⟨rfl, -, g, -, -, rfl⟩ | ⟨-, -, b, rfl⟩
  all_goals simp [report]

/-- A port write to another register than CMD changes neither a memory nor the dimensions (R19). -/
theorem portWrite_keeps_memories (s : State) (i : RegIndex) (d : PortWord) :
    (portWrite s i d).width = s.width ∧ (portWrite s i d).height = s.height ∧
    (portWrite s i d).grid = s.grid ∧ (portWrite s i d).payload = s.payload := by
  rcases portWrite_cases s i d with h | h | h | h | h | h | h | h <;> rw [h] <;> exact ⟨rfl, rfl, rfl, rfl⟩

/-- PAY_RD, where it goes on, returns a byte and changes nothing else (R17). -/
theorem perform_payRd_next {s t : State} {a : PayAddr} (h : perform (.payRd a) s = .next t) :
    ∃ v, t = s.addReply (.byte v) := by
  simp only [perform, hostPayRd] at h
  split at h
  · next v _ => exact ⟨v, (Host.Outcome.next.inj h).symm⟩
  · cases h

/-- Settles O55, by the kind of the operation; a write to index 0 is the command it starts. -/
theorem onlyNamedOperationsChangeTheGrid : Obligations.OnlyNamedOperationsChangeTheGrid := by
  unfold Obligations.OnlyNamedOperationsChangeTheGrid
  refine ⟨fun s t op h hload hreset => ?_, fun s t h => ?_⟩
  · cases op with
    | regWr i d =>
      by_cases hi : i = 0#5
      · subst hi
        rw [perform_cmd] at h
        obtain ⟨-, hw, hh, hgrid, -⟩ := exec_memory_frame h
        refine ⟨hw, hh, fun hne => ?_⟩
        obtain ⟨hembed, hwrbit, hsetpix⟩ := hne d rfl
        exact hgrid hembed hwrbit hsetpix
      · rw [perform_regWr hi] at h
        obtain rfl := Host.Outcome.next.inj h
        obtain ⟨hw, hh, hg, -⟩ := portWrite_keeps_memories s i d
        exact ⟨hw, hh, fun _ => hg⟩
    | regRd i | dumpGrid | payWr a v =>
      obtain rfl := Host.Outcome.next.inj h
      exact ⟨rfl, rfl, fun _ => rfl⟩
    | payRd a =>
      obtain ⟨v, rfl⟩ := perform_payRd_next h
      exact ⟨rfl, rfl, fun _ => rfl⟩
    | loadGrid w k img => exact absurd rfl (hload w k img)
    | reset => exact absurd rfl hreset
  · obtain rfl := Host.Outcome.next.inj h
    exact ⟨rfl, rfl, rfl⟩

/-- A result returned to the host changes no state of the block. -/
theorem sameBlock_addReply (s : State) (r : Reply) : s.SameBlock (s.addReply r) := rfl

/-- Where the payload memory is the one a range write left, the same range write changes nothing. -/
theorem payWriteRange_again {s t : State} {a : Nat} {bytes : List Byte} (hs : Memory.wf s.payload)
    (ha : a + bytes.length ≤ 2 ^ 32) (ht : t.payload = (payWriteRange a bytes s).payload) :
    payWriteRange a bytes t = t := by
  refine payWriteRange_of_payRead (ht ▸ (payWriteRange_wf hs ha).1) fun i hi => ?_
  have hread : payRead t (a + i) = payRead (payWriteRange a bytes s) (a + i) := by rw [payRead, ht]; rfl
  rw [hread, payRead_payWriteRange, if_pos (by omega), Nat.add_sub_cancel_left]

/-- A second EXTRACT changes nothing (R71): it reads the same grid and so takes the same branch; an error reports the same
again, and in the success case the message bytes already stand in the payload memory. -/
theorem exec_extract_again {s t : State} (hp : Memory.wf s.payload) (h : exec .extract s = .next t) :
    exec .extract t = .next t := by
  obtain ⟨hconf, hw, hh, hgrid, -⟩ := exec_memory_frame h
  replace hgrid : t.grid = s.grid := hgrid (by decide) (by decide) (by decide)
  have hcap : cap t = cap s := cap_congr hconf hw hh
  have hlen : declaredLength t = declaredLength s := declaredLength_congr hconf hw hgrid
  by_cases hc : cap s < 32
  · rw [exec_extract_format hc] at h
    rw [exec_extract_format (hcap ▸ hc), hcap, ← Host.Outcome.next.inj h]
    rfl
  replace hc := Nat.not_lt.1 hc
  by_cases hn : cap s < need (declaredLength s).toNat
  · rw [exec_extract_truncation hc hn] at h
    rw [exec_extract_truncation (hcap ▸ hc) (hcap ▸ hlen ▸ hn), hcap, hlen, ← Host.Outcome.next.inj h]
    rfl
  replace hn := Nat.not_lt.1 hn
  rw [exec_extract_fits hc hn] at h
  have hmsg := messageBytes_congr hconf hw hgrid 0 (declaredLength s).toNat
  have hpay : payWriteRange 0 (messageBytes s 0 (declaredLength s).toNat) t = t := by
    refine payWriteRange_again hp ?_ (Host.Outcome.next.inj h ▸ rfl)
    have := (declaredLength s).isLt
    rw [messageBytes_length]
    omega
  rw [exec_extract_fits (hcap ▸ hc) (hcap ▸ hlen ▸ hn), hcap, hlen, hmsg, hpay, ← Host.Outcome.next.inj h]
  rfl

/-- Settles O48: reads add a reply only, the reading commands keep both memories, and `exec_extract_again`. -/
theorem readsAreIdempotent : Obligations.ReadsAreIdempotent := by
  unfold Obligations.ReadsAreIdempotent
  refine ⟨fun s t op hop h => ?_, fun s t i hi h => ?_, fun s t h => ?_, fun s t hs h => ?_⟩
  · rcases hop with ⟨i, rfl⟩ | rfl | ⟨a, rfl⟩
    · obtain rfl := Host.Outcome.next.inj h
      exact sameBlock_addReply s _
    · obtain rfl := Host.Outcome.next.inj h
      exact sameBlock_addReply s _
    · obtain ⟨v, rfl⟩ := perform_payRd_next h
      exact sameBlock_addReply s _
  · obtain ⟨-, -, -, hgrid, hpay⟩ := exec_memory_frame h
    rcases hi with rfl | rfl | rfl | rfl | rfl <;>
      exact ⟨hgrid (by decide) (by decide) (by decide), hpay (by decide)⟩
  · obtain ⟨-, -, -, hgrid, -⟩ := exec_memory_frame h
    exact hgrid (by decide) (by decide) (by decide)
  · exact exec_extract_again hs.payload_wf h

end Sys2Proof.Machine
end

section
/-!
SUPPORT. Encoding and notation (30_encoding.md): the opcode map, the step a CMD write takes, and the expansion of the
pseudo-operations. The obligations O1, O3 and O6 are settled here.
-/

namespace Sys2Proof.Machine

/-! ## The opcode map (R76 to R78) -/

/-- What `Laws.OpcodeRow` says of each constructor, for every command. -/
theorem opcodeRow_statement (i : Instr) : Laws.OpcodeRow.Statement i := by
  cases i with
  | nop => exact Laws.OpcodeRow.nop
  | embed => exact Laws.OpcodeRow.embed
  | extract => exact Laws.OpcodeRow.extract
  | check => exact Laws.OpcodeRow.check
  | declen => exact Laws.OpcodeRow.declen
  | map => exact Laws.OpcodeRow.map
  | wrbit => exact Laws.OpcodeRow.wrbit
  | rdbit => exact Laws.OpcodeRow.rdbit
  | getpix => exact Laws.OpcodeRow.getpix
  | setpix => exact Laws.OpcodeRow.setpix
  | illegal101x x => exact Laws.OpcodeRow.illegal101x x
  | illegal11xx x => exact Laws.OpcodeRow.illegal11xx x

/-- Decoding loses no bit of a code: the illegal rows carry the bits their row leaves free (R76, R77). -/
@[simp] theorem encode_decodeOp : ∀ op : BitVec 4, encode (decodeOp op) = op := by decide

/-- A code lies in one row of the table, that of the command it decodes to. -/
theorem rowsOf_eq_singleton (op : BitVec 4) : ∃ r, rowsOf op = [r] ∧ r.name = mnemonic (decodeOp op) := by
  obtain ⟨-, hrow, -⟩ := opcodeRow_statement (decodeOp op)
  rw [encode_decodeOp] at hrow
  exact List.map_eq_singleton_iff.1 hrow

/-- Settles O1: the sixteen codes one by one, and `rowsOf_eq_singleton` for the table. -/
theorem everyCommandCodeSelectsItsRow : Obligations.EveryCommandCodeSelectsItsRow := by
  unfold Obligations.EveryCommandCodeSelectsItsRow
  exact ⟨by decide, fun _ => rfl, rowsOf_eq_singleton⟩

/-- A CMD write at the head of a program runs the command of its low four bits (R20, R72). -/
theorem step_withProgram_cmd (s : State) (d : PortWord) (ops : List HostOp) :
    step (s.withProgram (.regWr 0#5 d :: ops)) = exec (decodeOp (d.extractLsb' 0 4)) (s.withProgram ops) :=
  step_cons (s := s.withProgram (.regWr 0#5 d :: ops)) rfl

/-- Settles O3: the step is a function of bits [3:0], by `step_withProgram_cmd`. -/
theorem ignoredCommandBitsChangeNothing : Obligations.IgnoredCommandBitsChangeNothing := by
  unfold Obligations.IgnoredCommandBitsChangeNothing
  intro s ops d e hde
  refine ⟨?_, fun hd => ?_⟩
  · rw [step_withProgram_cmd, step_withProgram_cmd, hde]
  · rw [step_withProgram_cmd, hd]
    rfl

/-! ## Pseudo-operations (R81) -/

/-- A line whose numbers fit their fields expands (R80, R81). -/
theorem expandLine_of_wellFormed {l : Line} (images : List (String × List Byte)) (h : l.wellFormed = true) :
    expandLine images l = expandWellFormed images l := if_pos h

theorem expandLine_wr (images : List (String × List Byte)) (r : RegName) {v : Nat} (hv : v < 2 ^ 64) :
    expandLine images (.wr r v) = some [.regWr (regIndex r) (BitVec.ofNat 64 v)] :=
  expandLine_of_wellFormed images (decide_eq_true hv)

theorem expandLine_wrcfg (images : List (String × List Byte)) {bi : Nat} (r g b : Bool) (h : bi < 8) :
    expandLine images (.wrcfg bi r g b) = some [.regWr (regIndex .config) (BitVec.ofNat 64 (configValue bi r g b))] :=
  expandLine_of_wellFormed images (decide_eq_true h)

theorem expandLine_payw (images : List (String × List Byte)) {a v : Nat} (ha : a < 2 ^ 32) (hv : v < 2 ^ 8) :
    expandLine images (.payw a v) = some [.payWr (BitVec.ofNat 32 a) (BitVec.ofNat 8 v)] :=
  expandLine_of_wellFormed images (by simpa [Line.wellFormed] using ⟨ha, hv⟩)

/-- The data of a command's write is its code as a number (R73). -/
theorem commandData_eq_ofNat (c : Instr) : commandData c = BitVec.ofNat 64 (encode c).toNat :=
  (BitVec.ofNat_toNat 64 (encode c)).symm

/-- CONFIG has six bits, and so does what `wrcfg` writes. -/
theorem configValue_lt {bi : Nat} (r g b : Bool) (h : bi < 8) : configValue bi r g b < 64 := by
  have hr := r.toNat_lt
  have hg := g.toNat_lt
  have hb := b.toNat_lt
  rw [configValue]
  omega

/-- A text fits when it ends inside the payload memory and each of its characters is ASCII. -/
theorem paywText_wellFormed_iff {a : Nat} {text : String} : (Line.paywText a text).wellFormed = true ↔
    a + text.toList.length ≤ 2 ^ 32 ∧ ∀ c ∈ text.toList, c.toNat < 128 := by
  simp [Line.wellFormed]

@[simp] theorem textWrites_length (a : Nat) (cs : List Char) : (textWrites a cs).length = cs.length := by
  induction cs generalizing a with
  | nil => rfl
  | cons c cs ih => rw [textWrites, List.length_cons, List.length_cons, ih]

/-- Write `j` of a text puts its character `j` at address `a + j`. -/
theorem textWrites_getElem? (a : Nat) (cs : List Char) (j : Nat) :
    (textWrites a cs)[j]? = cs[j]?.map (fun c => .payWr (BitVec.ofNat 32 (a + j)) (BitVec.ofNat 8 c.toNat)) := by
  induction cs generalizing a j with
  | nil => rfl
  | cons c cs ih =>
    cases j with
    | zero => rfl
    | succ j => rw [textWrites, List.getElem?_cons_succ, List.getElem?_cons_succ, ih, Nat.add_right_comm, Nat.add_assoc]

/-- `payw a, text` writes what `payw a+j, byte j` writes, character by character (R81). -/
theorem expandLine_payw_of_text (images : List (String × List Byte)) {a j : Nat} {text : String} {c : Char}
    (h : (Line.paywText a text).wellFormed = true) (hj : text.toList[j]? = some c) :
    expandLine images (.payw (a + j) c.toNat) = some (textWrites a text.toList)[j]?.toList := by
  obtain ⟨hend, hascii⟩ := paywText_wellFormed_iff.1 h
  have hc := hascii c (List.mem_of_getElem? hj)
  obtain ⟨hlt, -⟩ := List.getElem?_eq_some_iff.1 hj
  rw [expandLine_payw images (by omega) (by omega), textWrites_getElem?, hj]
  rfl

/-- Settles O6: both sides of each pseudo-operation are well formed and give the same writes; a text is taken character
by character in `expandLine_payw_of_text`. -/
theorem pseudoOperationsExpand : Obligations.PseudoOperationsExpand := by
  unfold Obligations.PseudoOperationsExpand
  refine ⟨fun images c hc => ?_, fun images bi r g b hbi => ?_, fun images a text h => ?_⟩
  · have hcode := (encode c).isLt
    rw [expandLine_of_wellFormed images hc, expandLine_wr images .cmd (by omega), ← commandData_eq_ofNat]
    rfl
  · have hvalue := configValue_lt r g b hbi
    rw [expandLine_wrcfg images r g b hbi, ← configValue, expandLine_wr images .config (by omega)]
  · exact ⟨_, expandLine_of_wellFormed images h, textWrites_length a text.toList,
      fun j c hj => expandLine_payw_of_text images h hj⟩

end Sys2Proof.Machine
end

section
/-!
SUPPORT. The pixel access commands (40_pixel_access.md): GETPIX (R83) and SETPIX (R84). The obligations of that family
(O34, O35) are settled here.
-/

namespace Sys2Proof.Machine

/-- PIX_DATA after GETPIX holds each channel of the pixel at its place (R51, R83). -/
theorem unpackChannel_packPixel_pixRead (s : State) (x y : Nat) (c : Channel) :
    unpackChannel (packPixel (pixRead s x y .r) (pixRead s x y .g) (pixRead s x y .b) (pixRead s x y .a)) c =
      pixRead s x y c := by
  rw [unpackChannel_packPixel]
  cases c <;> rfl

/-- Settles O34: `exec_getpix_inside` and `exec_getpix_outside` give the two states, and unpacking undoes the packing of
the four channels read. -/
theorem getpixReadsThePixel : Obligations.GetpixReadsThePixel := by
  unfold Obligations.GetpixReadsThePixel
  refine ⟨fun s hx hy => ?_, fun s h => exec_getpix_outside h, rfl⟩
  have unpack := unpackChannel_packPixel_pixRead s s.argX.toNat s.argY.toNat
  exact ⟨_, exec_getpix_inside hx hy, rfl, unpack .r, unpack .g, unpack .b, unpack .a⟩

/-- Settles O35: `exec_setpix_inside` and `exec_setpix_outside` give the two states; every channel of the grid SETPIX
leaves is known from `pixRead_setpixGrid`, at the written pixel and at every other one. -/
theorem setpixWritesThePixel : Obligations.SetpixWritesThePixel := by
  unfold Obligations.SetpixWritesThePixel
  refine ⟨fun s hg hx hy => ?_, fun s h => exec_setpix_outside h, rfl⟩
  have written : ∀ c, pixRead (s.setGrid (setpixGrid s)) s.argX.toNat s.argY.toNat c = unpackChannel s.pixData c :=
    fun c => (pixRead_setpixGrid hg hx hy hx c).trans (if_pos ⟨rfl, rfl⟩)
  have kept : ∀ x y c, x < s.width.toNat → y < s.height.toNat → (x, y) ≠ (s.argX.toNat, s.argY.toNat) →
      pixRead (s.setGrid (setpixGrid s)) x y c = pixRead s x y c :=
    fun x y c hx' _ hne => (pixRead_setpixGrid hg hx hy hx' c).trans (if_neg fun ⟨ex, ey⟩ => hne (Prod.ext ex ey))
  exact ⟨_, exec_setpix_inside hx hy, rfl, (setpixGrid_length s).trans hg, written .r, written .g, written .b,
    written .a, kept⟩

end Sys2Proof.Machine
end

section
/-!
SUPPORT. The embed commands (41_embed.md): CHECK (R85), EMBED (R86) and what an EMBED leaves unchanged (R87). The
obligations of that family (O38, O39, O41) are settled here.
-/

namespace Sys2Proof.Machine

/-! ## The counts and CHECK (R85) -/

/-- The counts the capacity check reports are exact (R27, R28). -/
theorem report_need_cap (s : State) :
    (report (need s.payLen.toNat) (cap s) s).needBits.toNat = need s.payLen.toNat ∧
    (report (need s.payLen.toNat) (cap s) s).availBits.toNat = cap s :=
  ⟨report_needBits _ _ s (need_lt_pow64 s.payLen), report_availBits _ _ s (cap_lt_pow64 s)⟩

/-- Settles O38: `exec_check_eq` gives the state, and the counts fit their registers. -/
theorem checkReportsTheCapacityTest : Obligations.CheckReportsTheCapacityTest := by
  unfold Obligations.CheckReportsTheCapacityTest
  refine ⟨fun s => ?_, rfl⟩
  obtain ⟨hneed, havail⟩ := report_need_cap s
  exact ⟨_, exec_check_eq s, rfl, hneed, havail, fun h => if_pos h, fun h => if_neg (Nat.not_lt.2 h)⟩

/-! ## The state a successful EMBED leaves (R86) -/

/-- What EMBED leaves when `bytes` is the message: the counts, the frame in the carrier bits, STATUS OK. -/
def embedded (s : State) (bytes : List Byte) : State :=
  ((report (need s.payLen.toNat) (cap s) s).setGrid (writeCarrier 0 (envelope s.payLen bytes) s).grid).setStatus .ok

theorem embedded_gridFull {s : State} (hg : s.GridFull) (bytes : List Byte) : (embedded s bytes).GridFull :=
  (writeCarrier_grid_length 0 (envelope s.payLen bytes) s).trans hg

/-- The pixels are those the written stream left: the counts and STATUS are no part of the grid. -/
theorem pixRead_embedded (s : State) (bytes : List Byte) (x y : Nat) (c : Channel) :
    pixRead (embedded s bytes) x y c = pixRead (writeCarrier 0 (envelope s.payLen bytes) s) x y c := by
  rw [writeCarrier_eq]
  rfl

theorem cbit_embedded (s : State) (bytes : List Byte) (k : Nat) :
    cbit (embedded s bytes) k = cbit (writeCarrier 0 (envelope s.payLen bytes) s) k := by
  rw [writeCarrier_eq]
  rfl

section
variable {s : State} {bytes : List Byte} (hg : s.GridFull) (hl : bytes.length = s.payLen.toNat)
  (hroom : need s.payLen.toNat ≤ cap s)
include hg hl hroom

/-- The carrier bits of the embedded state are the bits of the frame (R86 step 5). -/
theorem cbit_embedded_of_envelope {k : Nat} {b : Bool} (hb : (envelope s.payLen bytes)[k]? = some b) :
    cbit (embedded s bytes) k = b := by
  rw [cbit_embedded]
  exact cbit_writeCarrier hg (by rwa [envelope_length, hl]) k b hb

/-- Every bit of the frame is written (R87). -/
theorem envelope_getElem?_eq_cbit_embedded {k : Nat} (hk : k < need s.payLen.toNat) :
    (envelope s.payLen bytes)[k]? = some (cbit (embedded s bytes) k) := by
  have hbit := List.getElem?_eq_getElem (l := envelope s.payLen bytes) (i := k) (by rwa [envelope_length, hl])
  rw [cbit_embedded_of_envelope hg hl hroom hbit, hbit]

/-- A bit of the grid that is no position of the frame is kept (R86, "on success"). -/
theorem getLsbD_embedded_of_ne_mapPos {x y : Nat} (hx : x < s.width.toNat) {c : Channel} {j : Nat}
    (hne : ∀ k < need s.payLen.toNat, mapPos s k ≠ ⟨x, y, c, j⟩) :
    (pixRead (embedded s bytes) x y c).getLsbD j = (pixRead s x y c).getLsbD j := by
  have hlen : (envelope s.payLen bytes).length = need s.payLen.toNat := by rw [envelope_length, hl]
  rw [pixRead_embedded]
  refine (getLsbD_writeCarrier hg (by omega) hx c j).1 fun i hi => ?_
  rw [Nat.zero_add]
  exact hne i (hlen ▸ hi)

/-- A channel byte that no position of the frame lies in is kept whole. -/
theorem pixRead_embedded_of_ne_mapPos {x y : Nat} (hx : x < s.width.toNat) {c : Channel}
    (hne : ∀ k < need s.payLen.toNat, ∀ j, mapPos s k ≠ ⟨x, y, c, j⟩) :
    pixRead (embedded s bytes) x y c = pixRead s x y c :=
  BitVec.eq_of_getLsbD_eq fun j _ => getLsbD_embedded_of_ne_mapPos hg hl hroom hx fun k hk => hne k hk j

/-- Non-target invariance (R87): every position of the frame lies in a channel of the list. -/
theorem pixRead_embedded_of_not_target {x y : Nat} (hx : x < s.width.toNat) {c : Channel} (hc : c ∉ ctList s) :
    pixRead (embedded s bytes) x y c = pixRead s x y c :=
  pixRead_embedded_of_ne_mapPos hg hl hroom hx fun k hk j he => by
    have hmem := mapPos_ch_mem (Nat.lt_of_lt_of_le hk hroom)
    rw [he] at hmem
    exact hc hmem

/-- Termination rule (R87): a position from need(L) on shares its channel byte with no position of the frame. -/
theorem pixRead_embedded_after_frame {k : Nat} (hk : need s.payLen.toNat ≤ k) (hcap : k < cap s) :
    pixRead (embedded s bytes) (mapPos s k).x (mapPos s k).y (mapPos s k).ch =
      pixRead s (mapPos s k).x (mapPos s k).y (mapPos s k).ch := by
  obtain ⟨-, -, hx, -, -, -⟩ := mapPos_spec hcap
  refine pixRead_embedded_of_ne_mapPos hg hl hroom hx fun l hlt j he => ?_
  have : l = k := mapPos_inj (Nat.lt_of_lt_of_le hlt hroom) hcap (by rw [he]) (by rw [he]) (by rw [he])
  omega

end

/-! ## The cases of EMBED (R86, R108) -/

/-- With room and every byte written, EMBED goes on with the bytes of the payload memory. -/
theorem exec_embed_ready {s : State} (hp : s.PayloadReady) (hroom : need s.payLen.toNat ≤ cap s) :
    ∃ bytes : List Byte, bytes.length = s.payLen.toNat ∧ (∀ i < s.payLen.toNat, payRead s i = bytes[i]?) ∧
      exec .embed s = .next (embedded s bytes) := by
  rcases exec_embed_cases s with ⟨hshort, -⟩ | ⟨-, a, ha, hnone, -, -⟩ | ⟨-, hbytes⟩
  · omega
  · exact absurd hnone (hp a ha)
  · exact hbytes

/-- With room and a byte unwritten, EMBED is the model fault at the first unwritten address. -/
theorem exec_embed_not_ready {s : State} (hp : ¬ s.PayloadReady) (hroom : need s.payLen.toNat ≤ cap s) :
    ∃ a : PayAddr, a.toNat < s.payLen.toNat ∧ payRead s a.toNat = none ∧ (∀ b < a.toNat, payRead s b ≠ none) ∧
      exec .embed s = .fault (.uninitPayload a) := by
  rcases exec_embed_cases s with ⟨hshort, -⟩ | ⟨-, a, ha, hnone, hfirst, hexec⟩ | ⟨-, bytes, hl, hb, -⟩
  · omega
  · have haddr : (BitVec.ofNat 32 a).toNat = a := Nat.mod_eq_of_lt (Nat.lt_trans ha s.payLen.isLt)
    exact ⟨BitVec.ofNat 32 a, by rwa [haddr], by rwa [haddr], by rwa [haddr], hexec⟩
  · refine absurd (fun i hi => ?_) hp
    rw [hb i hi, List.getElem?_eq_getElem (hl ▸ hi)]
    exact Option.some_ne_none _

/-- An EMBED that goes on ends with CAPACITY_ERROR and the counts reported, or in an embedded state. -/
theorem exec_embed_next {s t : State} (h : exec .embed s = .next t) :
    t = (report (need s.payLen.toNat) (cap s) s).setStatus .capacityError ∨
    (need s.payLen.toNat ≤ cap s ∧ ∃ bytes : List Byte, bytes.length = s.payLen.toNat ∧ t = embedded s bytes) := by
  rcases exec_embed_cases s with ⟨-, he⟩ | ⟨-, a, -, -, -, he⟩ | ⟨hroom, bytes, hl, -, he⟩ <;> rw [he] at h
  · exact .inl (Host.Outcome.next.inj h).symm
  · cases h
  · exact .inr ⟨hroom, bytes, hl, (Host.Outcome.next.inj h).symm⟩

/-! ## The obligations about EMBED -/

/-- Settles O39: the success case is `exec_embed_ready`, whose state is known from the layout of the envelope and from
`getLsbD_embedded_of_ne_mapPos`; the other two are `exec_embed_short` and `exec_embed_not_ready`. -/
theorem embedWritesTheFrame : Obligations.EmbedWritesTheFrame := by
  unfold Obligations.EmbedWritesTheFrame
  refine ⟨fun s hg hp hroom => ?_, fun s hshort => ?_, fun s hp hroom => exec_embed_not_ready hp hroom, rfl⟩
  · obtain ⟨bytes, hl, hb, hexec⟩ := exec_embed_ready hp hroom
    obtain ⟨hneed, havail⟩ := report_need_cap s
    refine ⟨_, hexec, rfl, embedded_gridFull hg bytes, hneed, havail, fun j hj => ?_, fun i j v hi hj hv => ?_,
      fun x y c j hx _ hne => getLsbD_embedded_of_ne_mapPos hg hl hroom hx hne⟩
    · exact cbit_embedded_of_envelope hg hl hroom (envelope_header s.payLen bytes j hj)
    · exact cbit_embedded_of_envelope hg hl hroom (envelope_message s.payLen bytes i j v (hb i hi ▸ hv) hj)
  · obtain ⟨hneed, havail⟩ := report_need_cap s
    exact ⟨_, exec_embed_short hshort, rfl, hneed, havail⟩

/-- Settles O41: an EMBED that ends with OK leaves an embedded state, and each kind of kept byte or bit lies at no
position of the frame; at the boundary it is `exec_embed_ready` and `exec_embed_short`. -/
theorem embedInvariances : Obligations.EmbedInvariances := by
  unfold Obligations.EmbedInvariances
  refine ⟨fun s t hg h hok => ?_, fun s t h herr => ?_, fun s hp hexact => ?_, fun s hover => ?_⟩
  · obtain rfl | ⟨hroom, bytes, hl, rfl⟩ := exec_embed_next h
    · cases hok
    refine ⟨fun x y hx _ => pixRead_embedded_of_not_target hg hl hroom hx (alpha_not_mem_ctList s),
      fun x y c hx _ hc => pixRead_embedded_of_not_target hg hl hroom hx hc, fun x y c j hx _ hj => ?_,
      fun k hk hcap => pixRead_embedded_after_frame hg hl hroom hk hcap, fun bytes' hl' hb' k hk => ?_⟩
    · exact getLsbD_embedded_of_ne_mapPos hg hl hroom hx fun k _ he => hj (congrArg Position.bit he).symm
    · have hsame : embedded s bytes = embedded s bytes' :=
        Host.Outcome.next.inj (h.symm.trans (exec_embed_fits hroom hl' hb'))
      rw [hsame]
      exact envelope_getElem?_eq_cbit_embedded hg hl' hroom hk
  · obtain rfl | ⟨-, bytes, -, rfl⟩ := exec_embed_next h
    · rfl
    · cases herr
  · obtain ⟨bytes, -, -, hexec⟩ := exec_embed_ready hp hexact.le
    exact ⟨_, hexec, rfl⟩
  · exact ⟨_, exec_embed_short (hover ▸ Nat.lt_succ_self (cap s)), rfl⟩

end Sys2Proof.Machine
end

section
/-!
SUPPORT. The extract commands (42_extract.md): DECLEN (R88) and EXTRACT (R89). The obligations of that family (O42, O43)
are settled here.
-/

namespace Sys2Proof.Machine

/-! ## The header and its counts (R88) -/

/-- A command that ends with FORMAT_ERROR reports 32 and the capacity, both exact, and writes nothing else (R27, R28). -/
theorem exec_format_reports {i : Instr} {s : State}
    (h : exec i s = .next ((report 32 (cap s) s).setStatus .formatError)) :
    ∃ t, exec i s = .next t ∧
      t = { s with needBits := t.needBits, availBits := t.availBits, status := .formatError } ∧
      t.needBits.toNat = 32 ∧ t.availBits.toNat = cap s :=
  ⟨_, h, rfl, report_needBits 32 (cap s) s (by decide), report_availBits 32 (cap s) s (cap_lt_pow64 s)⟩

/-- What DECLEN and EXTRACT leave before their last check: LEN_OUT and the two counts (R88 step 3, R89). -/
def headerDecoded (s : State) : State :=
  report (need (declaredLength s).toNat) (cap s) (s.setLenOut (declaredLength s))

/-- The length is the sum of R62 and the counts fit their registers. -/
theorem headerDecoded_counts (s : State) :
    (headerDecoded s).lenOut.toNat = (∑ j ∈ Finset.range 32, (cbit s j).toNat * 2 ^ (31 - j)) ∧
    (headerDecoded s).needBits.toNat = need (headerDecoded s).lenOut.toNat ∧
    (headerDecoded s).availBits.toNat = cap s :=
  ⟨declaredLength_toNat s, report_needBits _ _ _ (need_lt_pow64 (declaredLength s)),
    report_availBits _ _ _ (cap_lt_pow64 s)⟩

/-! ## DECLEN (R88) -/

/-- With room for a header, DECLEN decodes it and tests the frame against the capacity. -/
theorem exec_declen_eq {s : State} (h : 32 ≤ cap s) :
    exec .declen s = .next ((headerDecoded s).setStatus
      (if cap s < need (declaredLength s).toNat then .truncationError else .ok)) := by
  by_cases hn : cap s < need (declaredLength s).toNat
  · rw [exec_declen_truncation h hn, if_pos hn, headerDecoded]
  · rw [exec_declen_fits h (Nat.not_lt.1 hn), if_neg hn, headerDecoded]

/-- Settles O42: `exec_declen_format` without room for a header, `exec_declen_eq` with it. -/
theorem declenDecodesTheHeader : Obligations.DeclenDecodesTheHeader := by
  unfold Obligations.DeclenDecodesTheHeader
  refine ⟨fun s => ⟨fun h => exec_format_reports (exec_declen_format h), fun h => ?_⟩, rfl⟩
  obtain ⟨hlen, hneed, havail⟩ := headerDecoded_counts s
  exact ⟨_, exec_declen_eq h, rfl, hlen, hneed, havail, fun hfit => if_neg (Nat.not_lt.2 hfit), fun hn => if_pos hn⟩

/-! ## EXTRACT (R89) -/

/-- What EXTRACT leaves when the frame fits: the decoded header, the message in the payload memory, STATUS OK. -/
def extracted (s : State) : State :=
  ((headerDecoded s).setPayload
    (payWriteRange 0 (messageBytes s 0 (declaredLength s).toNat) s).payload).setStatus .ok

/-- Message byte `i` stands in payload cell `i`, and every cell from the length on keeps what it holds (R89). -/
theorem payRead_extracted (s : State) (a : Nat) : payRead (extracted s) a =
    if a < (declaredLength s).toNat then some (messageByte s a) else payRead s a := by
  have hread : payRead (extracted s) a = payRead (payWriteRange 0 (messageBytes s 0 (declaredLength s).toNat) s) a := rfl
  rw [hread, payRead_payWriteRange, messageBytes_length, Nat.zero_add, Nat.sub_zero]
  by_cases ha : a < (declaredLength s).toNat
  · rw [if_pos ⟨Nat.zero_le a, ha⟩, if_pos ha, messageBytes_getElem? s 0 _ a ha, Nat.zero_add]
  · rw [if_neg fun hr => ha hr.2, if_neg ha]

/-- Settles O43: the three branches are `exec_extract_format`, `exec_extract_truncation` and `exec_extract_fits`, and
`payRead_extracted` tells every payload cell of the last. -/
theorem extractRecoversTheMessage : Obligations.ExtractRecoversTheMessage := by
  unfold Obligations.ExtractRecoversTheMessage
  refine ⟨fun s => ⟨fun h => exec_format_reports (exec_extract_format h), fun h => ?_⟩, rfl⟩
  obtain ⟨hlen, hneed, havail⟩ := headerDecoded_counts s
  by_cases hn : cap s < need (declaredLength s).toNat
  · exact ⟨_, exec_extract_truncation h hn, rfl, hlen, hneed, havail, fun _ => ⟨rfl, rfl⟩,
      fun hfit => absurd hn (Nat.not_lt.2 hfit)⟩
  · refine ⟨extracted s, exec_extract_fits h (Nat.not_lt.1 hn), rfl, hlen, hneed, havail,
      fun hshort => absurd hshort hn, fun _ => ⟨rfl, fun i hi => ?_, fun a ha => ?_⟩⟩
    · exact ⟨messageByte s i, (payRead_extracted s i).trans (if_pos hi), messageByte_toNat s i⟩
    · exact (payRead_extracted s a).trans (if_neg (Nat.not_lt.2 ha))

end Sys2Proof.Machine
end

section
/-!
SUPPORT. The bit mapping commands (43_bit_mapping.md): MAP (R91), WRBIT (R92) and RDBIT (R93). The obligations of that
family (O50, O51, O52) are settled here.
-/

namespace Sys2Proof.Machine

/-! ## MAP (R91) -/

/-- Settles O50: `exec_map_inside` gives the four results, and its position is the one of R57 by `mapPos_spec`. -/
theorem mapWritesThePosition : Obligations.MapWritesThePosition := by
  unfold Obligations.MapWritesThePosition
  refine ⟨fun s hk => ?_, fun s h => exec_map_outside h, rfl⟩
  obtain ⟨x, y, c, j, hexec, hx, hy, hc, hj⟩ := exec_map_inside hk
  obtain ⟨-, -, -, -, hch, -⟩ := mapPos_spec hk
  exact ⟨_, hexec, rfl, hx, hy, ⟨_, hch, hc⟩, BitVec.eq_of_toNat_eq hj⟩

/-! ## One carrier bit (R62) -/

/-- The carrier bit at a position is bit BIT_INDEX of the channel byte there (R62). -/
theorem cbit_eq_getLsbD (s : State) (k : Nat) :
    cbit s k = (pixRead s (mapPos s k).x (mapPos s k).y (mapPos s k).ch).getLsbD (bitIndex s) :=
  rbit_eq_getLsbD _ _

/-- A carrier bit written is the carrier bit read at that position. -/
theorem cbit_writeCarrierBit {s : State} (hg : s.GridFull) {k : Nat} (hk : k < cap s) (b : Bool) :
    cbit (writeCarrierBit k b s) k = b := by
  obtain ⟨-, -, hx, -, -, -⟩ := mapPos_spec hk
  have hpos : mapPos (writeCarrierBit k b s) k = mapPos s k := mapPos_congr rfl rfl k
  rw [cbit, hpos, rbit_eq_getLsbD, getLsbD_writeCarrierBit hg hk b hx, if_pos rfl]

/-! ## WRBIT (R92) -/

/-- Settles O51: `getLsbD_writeCarrierBit` tells every bit of the grid WRBIT leaves, at the position and away from it. -/
theorem wrbitWritesOneCarrierBit : Obligations.WrbitWritesOneCarrierBit := by
  unfold Obligations.WrbitWritesOneCarrierBit
  refine ⟨fun s hg hk => ?_, fun s h => exec_wrbit_outside h, rfl⟩
  obtain ⟨-, -, hx, -, -, -⟩ := mapPos_spec hk
  refine ⟨_, exec_wrbit_inside hk, rfl, (writeCarrierBit_grid_length _ _ s).trans hg, ?_, fun x y c j hx' _ hne => ?_⟩
  · exact (getLsbD_writeCarrierBit hg hk _ hx _ _).trans (if_pos rfl)
  · exact (getLsbD_writeCarrierBit hg hk _ hx' c j).trans (if_neg hne)

/-! ## RDBIT (R93) -/

/-- A BIT_IO value is its one bit (R30). -/
theorem ofBool_getLsbD_zero : ∀ v : BitVec 1, BitVec.ofBool (v.getLsbD 0) = v := by decide

/-- RDBIT gives back a state with STATUS OK whose BIT_IO was the carrier bit at ARG_K before `d` replaced it. -/
theorem exec_rdbit_setBitIo {t : State} (hk : t.argK.toNat < cap t) (hok : t.status = .ok)
    (hbit : BitVec.ofBool (cbit t t.argK.toNat) = t.bitIo) (d : BitVec 1) :
    exec .rdbit (t.setBitIo d) = .next t := by
  have hread : cbit (t.setBitIo d) t.argK.toNat = cbit t t.argK.toNat := cbit_congr rfl rfl rfl _
  rw [exec_rdbit_inside (s := t.setBitIo d) hk, State.setBitIo_argK, hread, hbit, ← hok]
  rfl

/-- What WRBIT leaves is such a state: the bit it wrote is the BIT_IO it kept. -/
theorem exec_rdbit_of_exec_wrbit {s t : State} (hg : s.GridFull) (hk : s.argK.toNat < cap s)
    (h : exec .wrbit s = .next t) (d : BitVec 1) : exec .rdbit (t.setBitIo d) = .next t := by
  obtain rfl := Host.Outcome.next.inj ((exec_wrbit_inside hk).symm.trans h)
  refine exec_rdbit_setBitIo ?_ rfl ?_ d
  · exact hk
  · exact (congrArg BitVec.ofBool (cbit_writeCarrierBit hg hk _)).trans (ofBool_getLsbD_zero s.bitIo)

/-- Settles O52: BIT_IO takes the carrier bit, which is the bit at the position by `cbit_eq_getLsbD`; after a WRBIT it is
`exec_rdbit_of_exec_wrbit`. -/
theorem rdbitReadsOneCarrierBit : Obligations.RdbitReadsOneCarrierBit := by
  unfold Obligations.RdbitReadsOneCarrierBit
  refine ⟨fun s hk => ⟨_, exec_rdbit_inside hk, rfl, ?_⟩, fun s h => exec_rdbit_outside h,
    fun s t hg hk h d => exec_rdbit_of_exec_wrbit hg hk h d, rfl⟩
  simp [cbit_eq_getLsbD]

end Sys2Proof.Machine
end

section
/-!
SUPPORT. The control commands (44_control.md): NOP (R94) and the illegal codes (R95). The obligations of that family (O32,
O33) are settled here.
-/

namespace Sys2Proof.Machine

/-! ## NOP (R94) -/

theorem exec_nop (s : State) : exec .nop s = .next s := rfl

/-- Settles O32: `exec_nop`, and the first row of the opcode map. -/
theorem nopChangesNothing : Obligations.NopChangesNothing := by
  unfold Obligations.NopChangesNothing
  exact ⟨exec_nop, rfl⟩

/-! ## The illegal codes (R95) -/

theorem exec_illegal101x (s : State) (x : BitVec 1) :
    exec (.illegal101x x) s = .next (s.setStatus .illegalCommand) := rfl

theorem exec_illegal11xx (s : State) (x : BitVec 2) :
    exec (.illegal11xx x) s = .next (s.setStatus .illegalCommand) := rfl

/-- Codes 10 and 11 are the row 101x, which leaves bit 0 free (R77). -/
theorem decodeOp_of_ten_le_of_lt_twelve :
    ∀ op : BitVec 4, 10 ≤ op.toNat → op.toNat < 12 → decodeOp op = .illegal101x (op.setWidth 1) := by decide

/-- Codes 12 to 15 are the row 11xx, which leaves bits [1:0] free (R77). -/
theorem decodeOp_of_twelve_le :
    ∀ op : BitVec 4, 12 ≤ op.toNat → decodeOp op = .illegal11xx (op.setWidth 2) := by decide

/-- Settles O33: both illegal rows set STATUS alone, and a code from 10 on lies in the one below 12 or the one from 12. -/
theorem illegalCodesSetStatusOnly : Obligations.IllegalCodesSetStatusOnly := by
  unfold Obligations.IllegalCodesSetStatusOnly
  refine ⟨exec_illegal101x, exec_illegal11xx, rfl, fun op h10 => ?_⟩
  rcases Nat.lt_or_ge op.toNat 12 with h12 | h12
  · exact .inl ⟨_, decodeOp_of_ten_le_of_lt_twelve op h10 h12⟩
  · exact .inr ⟨_, decodeOp_of_twelve_le op h12⟩

end Sys2Proof.Machine
end

section
/-!
SUPPORT. Exceptions (60_exceptions.md): the model faults and refusals (R108, R109) and the errors of a command (R100 to
R103). The obligations of that family (O11, O20, O22, O37, O40, O44, O45) are settled here.
-/

namespace Sys2Proof.Machine

/-! ## UNINIT_PAYLOAD (R108) -/

/-- PAY_RD stops exactly at an unwritten cell, and the fault names it. -/
theorem perform_payRd_fault_iff {s : State} {a : PayAddr} {f : Fault} :
    perform (.payRd a) s = .fault f ↔ payRead s a.toNat = none ∧ f = .uninitPayload a := by
  show hostPayRd a s = .fault f ↔ _
  unfold hostPayRd
  cases payRead s a.toNat <;> simp [eq_comm]

/-- EMBED stops exactly when the frame has room and a byte is unwritten, and the fault names the first such address. -/
theorem exec_embed_fault_iff {s : State} {f : Fault} :
    exec .embed s = .fault f ↔ need s.payLen.toNat ≤ cap s ∧ ∃ a < s.payLen.toNat, payRead s a = none ∧
      (∀ b < a, payRead s b ≠ none) ∧ f = .uninitPayload (BitVec.ofNat 32 a) := by
  constructor
  · intro h
    rcases exec_embed_cases s with ⟨-, he⟩ | ⟨hroom, a, ha, hnone, hfirst, he⟩ | ⟨-, bytes, -, -, he⟩ <;> rw [he] at h
    · cases h
    · exact ⟨hroom, a, ha, hnone, hfirst, (Host.Outcome.fault.inj h).symm⟩
    · cases h
  · rintro ⟨hroom, a, ha, hnone, hfirst, rfl⟩
    exact exec_embed_unwritten hroom ha hnone hfirst

/-- EMBED is the command of code 1 alone (R76). -/
theorem decodeCommand_eq_embed_iff {d : PortWord} : decodeCommand d = .embed ↔ d.extractLsb' 0 4 = 1#4 :=
  ⟨fun h => (encode_decodeOp (opField d)).symm.trans (congrArg encode h), fun h => congrArg decodeOp h⟩

/-- No operation but PAY_RD and the CMD write that starts EMBED stops with a fault. -/
theorem perform_fault_cases {op : HostOp} {s : State} {f : Fault} (h : perform op s = .fault f) :
    (∃ a, op = .payRd a) ∨ ∃ d, op = .regWr 0#5 d ∧ decodeCommand d = .embed := by
  cases op with
  | regWr i d =>
    by_cases hi : i = 0#5
    · subst hi
      exact .inr ⟨d, rfl, exec_fault_embed h⟩
    · rw [perform_regWr hi] at h
      cases h
  | payRd a => exact .inl ⟨a, rfl⟩
  | loadGrid w k img =>
    simp only [perform, hostLoadGrid] at h
    split at h <;> cases h
  | regRd i | dumpGrid | payWr a v | reset => cases h

/-- Settles O22: the two places where a cell is read, and EMBED's capacity check before the second. -/
theorem unwrittenPayloadReadsFault : Obligations.UnwrittenPayloadReadsFault := by
  unfold Obligations.UnwrittenPayloadReadsFault
  exact ⟨fun s a hnone => perform_payRd_fault_iff.2 ⟨hnone, rfl⟩,
    fun s a hroom ha hnone hfirst => exec_embed_unwritten hroom ha hnone hfirst,
    fun s hshort => ⟨_, exec_embed_short hshort, rfl⟩⟩

/-! ## The refusal of LOAD_GRID (R109) -/

/-- LOAD_GRID is refused exactly when a dimension or the image does not fit. -/
theorem perform_loadGrid_refused_iff {s : State} {w h : Nat} {img : List Byte} {r : Refusal} :
    perform (.loadGrid w h img) s = .refused r ↔
      (2 ^ s.dimBits ≤ w ∨ 2 ^ s.dimBits ≤ h ∨ img.length ≠ 4 * w * h) ∧ r = .loadGridDoesNotFit := by
  show hostLoadGrid w h img s = .refused r ↔ _
  unfold hostLoadGrid
  by_cases hfit : loadGridFits s w h img = true
  · obtain ⟨hw, hh, hl⟩ := loadGridFits_iff.1 hfit
    simp [hfit, hl, hw, hh]
  · have hunfit : 2 ^ s.dimBits ≤ w ∨ 2 ^ s.dimBits ≤ h ∨ img.length ≠ 4 * w * h := by
      rw [loadGridFits_iff] at hfit
      omega
    rw [if_neg hfit]
    simp only [hunfit, true_and, Host.Outcome.refused.injEq, eq_comm]

/-- No operation but LOAD_GRID is refused. -/
theorem perform_refused_loadGrid {op : HostOp} {s : State} {r : Refusal} (h : perform op s = .refused r) :
    ∃ w k img, op = .loadGrid w k img := by
  cases op with
  | loadGrid w k img => exact ⟨w, k, img, rfl⟩
  | regWr i d =>
    by_cases hi : i = 0#5
    · subst hi
      exact absurd h (exec_ne_refused (decodeCommand d) s r)
    · rw [perform_regWr hi] at h
      cases h
  | payRd a =>
    simp only [perform, hostPayRd] at h
    split at h <;> cases h
  | regRd i | dumpGrid | payWr a v | reset => cases h

/-- Settles O20 by `perform_loadGrid_refused_iff`. -/
theorem unfitLoadGridIsRefused : Obligations.UnfitLoadGridIsRefused := by
  unfold Obligations.UnfitLoadGridIsRefused
  exact fun s w h img hunfit => perform_loadGrid_refused_iff.2 ⟨hunfit, rfl⟩

/-- Settles O11: `perform_fault_cases` and `perform_refused_loadGrid` name the operations that can stop, and each of them
stops exactly where its own lemma says. -/
theorem modelStopsExactlyWhereTheSpecDoes : Obligations.ModelStopsExactlyWhereTheSpecDoes := by
  unfold Obligations.ModelStopsExactlyWhereTheSpecDoes
  refine ⟨fun s f op => ⟨fun h => ?_, ?_⟩, fun s r op => ⟨fun h => ?_, ?_⟩⟩
  · obtain ⟨a, rfl⟩ | ⟨d, rfl, hd⟩ := perform_fault_cases h
    · obtain ⟨hnone, rfl⟩ := perform_payRd_fault_iff.1 h
      exact .inl ⟨a, rfl, hnone, rfl⟩
    · rw [perform_cmd, hd] at h
      obtain ⟨hroom, a, ha, hnone, hfirst, rfl⟩ := exec_embed_fault_iff.1 h
      exact .inr ⟨d, a, rfl, decodeCommand_eq_embed_iff.1 hd, hroom, ha, hnone, hfirst, rfl⟩
  · rintro (⟨a, rfl, hnone, rfl⟩ | ⟨d, a, rfl, hd, hroom, ha, hnone, hfirst, rfl⟩)
    · exact perform_payRd_fault_iff.2 ⟨hnone, rfl⟩
    · rw [perform_cmd, decodeCommand_eq_embed_iff.2 hd]
      exact exec_embed_unwritten hroom ha hnone hfirst
  · obtain ⟨w, k, img, rfl⟩ := perform_refused_loadGrid h
    obtain ⟨hunfit, rfl⟩ := perform_loadGrid_refused_iff.1 h
    exact ⟨w, k, img, rfl, hunfit, rfl⟩
  · rintro ⟨w, k, img, rfl, hunfit, rfl⟩
    exact perform_loadGrid_refused_iff.2 ⟨hunfit, rfl⟩

/-! ## The cause of each error (R100 to R105) -/

/-- GETPIX and SETPIX out of range write STATUS alone. -/
theorem exec_pixel_outside {i : Instr} {s : State} (hi : i = .getpix ∨ i = .setpix)
    (h : s.width.toNat ≤ s.argX.toNat ∨ s.height.toNat ≤ s.argY.toNat) : exec i s = .next (s.setStatus .indexError) := by
  obtain rfl | rfl := hi
  · exact exec_getpix_outside h
  · exact exec_setpix_outside h

theorem exec_pixel_inside {i : Instr} {s : State} (hi : i = .getpix ∨ i = .setpix)
    (hx : s.argX.toNat < s.width.toNat) (hy : s.argY.toNat < s.height.toNat) :
    ∃ t, exec i s = .next t ∧ t.status = .ok := by
  obtain rfl | rfl := hi
  · exact ⟨_, exec_getpix_inside hx hy, rfl⟩
  · exact ⟨_, exec_setpix_inside hx hy, rfl⟩

/-- MAP, WRBIT and RDBIT from the capacity on write STATUS alone. -/
theorem exec_position_outside {i : Instr} {s : State} (hi : i = .map ∨ i = .wrbit ∨ i = .rdbit)
    (h : cap s ≤ s.argK.toNat) : exec i s = .next (s.setStatus .indexError) := by
  obtain rfl | rfl | rfl := hi
  · exact exec_map_outside h
  · exact exec_wrbit_outside h
  · exact exec_rdbit_outside h

theorem exec_position_inside {i : Instr} {s : State} (hi : i = .map ∨ i = .wrbit ∨ i = .rdbit)
    (h : s.argK.toNat < cap s) : ∃ t, exec i s = .next t ∧ t.status = .ok := by
  obtain rfl | rfl | rfl := hi
  · obtain ⟨x, y, c, j, hexec, -⟩ := exec_map_inside h
    exact ⟨_, hexec, rfl⟩
  · exact ⟨_, exec_wrbit_inside h, rfl⟩
  · exact ⟨_, exec_rdbit_inside h, rfl⟩

/-- What a STATUS code tells of the command `i` that wrote it and of the state `s` that command began in. -/
def StatusCause (i : Instr) (s : State) : StatusCode → Prop
  | .ok => True
  | .capacityError => (i = .embed ∨ i = .check) ∧ cap s < need s.payLen.toNat
  | .formatError => (i = .extract ∨ i = .declen) ∧ cap s < 32
  | .truncationError => (i = .extract ∨ i = .declen) ∧ 32 ≤ cap s ∧ cap s < need (declaredLength s).toNat
  | .indexError =>
    (i = .getpix ∨ i = .setpix) ∧ (s.width.toNat ≤ s.argX.toNat ∨ s.height.toNat ≤ s.argY.toNat) ∨
    (i = .map ∨ i = .wrbit ∨ i = .rdbit) ∧ cap s ≤ s.argK.toNat
  | .decodeError => False
  | .illegalCommand => (∃ x, i = .illegal101x x) ∨ ∃ x, i = .illegal11xx x

/-- INDEX_ERROR has its cause: inside the range the five commands end with OK. -/
theorem exec_indexError_cause {i : Instr} {s : State}
    (hi : i = .getpix ∨ i = .setpix ∨ i = .map ∨ i = .wrbit ∨ i = .rdbit)
    (h : exec i s = .next (s.setStatus .indexError)) : StatusCause i s .indexError := by
  have not_ok : ¬ ∃ t, exec i s = .next t ∧ t.status = .ok := by
    rintro ⟨t, ht, hok⟩
    obtain rfl := Host.Outcome.next.inj (h.symm.trans ht)
    cases hok
  rw [← or_assoc] at hi
  obtain hi | hi := hi
  · refine .inl ⟨hi, ?_⟩
    by_contra hin
    obtain ⟨hx, hy⟩ := not_or.1 hin
    exact not_ok (exec_pixel_inside hi (Nat.not_le.1 hx) (Nat.not_le.1 hy))
  · exact .inr ⟨hi, Nat.not_lt.1 fun hk => not_ok (exec_position_inside hi hk)⟩

/-- Every command but NOP, which writes no STATUS, ends with a code that has its cause. -/
theorem exec_statusCause {i : Instr} {s t : State} {code : StatusCode} (hnop : i ≠ .nop) (h : exec i s = .next t)
    (hcode : t.status = code) : StatusCause i s code := by
  subst hcode
  rcases exec_next_cases h with ⟨rfl, -⟩ | ⟨e, ⟨rfl, hi⟩ | ⟨rfl, hi⟩, rfl⟩ | ⟨hi, hshort, rfl⟩ | ⟨hi, hshort, rfl⟩ |
    ⟨hi, hroom, hshort, rfl⟩ | ⟨-, -, rfl⟩ | ⟨-, -, _, g, -, -, -, -, rfl⟩ | ⟨-, -, -, rfl⟩ | ⟨-, -, -, m, -, rfl⟩ |
    ⟨-, -, -, d, rfl⟩ | ⟨-, -, -, g, -, -, rfl⟩ | ⟨-, -, x, y, c, j, rfl, -⟩ | ⟨-, -, g, -, -, rfl⟩ | ⟨-, -, b, rfl⟩
  · exact absurd rfl hnop
  · exact exec_indexError_cause hi h
  · exact hi
  · exact ⟨hi, hshort⟩
  · exact ⟨hi, hshort⟩
  · exact ⟨hi, hroom, hshort⟩
  all_goals trivial

/-- Settles O37: out of range by `exec_pixel_outside` and `exec_position_outside`; the converses, and that the other four
commands never raise it, by `exec_statusCause`. -/
theorem indexErrorRecordsOnlyStatus : Obligations.IndexErrorRecordsOnlyStatus := by
  unfold Obligations.IndexErrorRecordsOnlyStatus
  refine ⟨fun s i hi => ⟨exec_pixel_outside hi, fun t h he => ?_⟩,
    fun s i hi => ⟨exec_position_outside hi, fun t h he => ?_⟩, fun s t i hi h he => ?_, rfl⟩
  · rcases hi with rfl | rfl <;> simpa [StatusCause] using exec_statusCause (by simp) h he
  · rcases hi with rfl | rfl | rfl <;> simpa [StatusCause] using exec_statusCause (by simp) h he
  · rcases hi with rfl | rfl | rfl | rfl <;> simpa [StatusCause] using exec_statusCause (by simp) h he

/-! ## CAPACITY_ERROR (R100) -/

/-- Settles O40: EMBED and CHECK end in the same state, whose counts are exact by `report_need_cap`. -/
theorem capacityErrorReportsBothCounts : Obligations.CapacityErrorReportsBothCounts := by
  unfold Obligations.CapacityErrorReportsBothCounts
  refine ⟨fun s i hi hshort => ?_, rfl⟩
  have hexec : exec i s = .next ((report (need s.payLen.toNat) (cap s) s).setStatus .capacityError) := by
    obtain rfl | rfl := hi
    · exact exec_embed_short hshort
    · exact (exec_check_eq s).trans (by rw [if_pos (show cap s < need s.payLen.toNat from hshort)])
  obtain ⟨hneed, havail⟩ := report_need_cap s
  exact ⟨_, hexec, rfl, hneed, havail⟩

/-! ## FORMAT_ERROR (R101) -/

/-- Settles O44: the state by `exec_format_reports`, the converse by `exec_statusCause`. -/
theorem formatErrorExactlyWithoutHeaderRoom : Obligations.FormatErrorExactlyWithoutHeaderRoom := by
  unfold Obligations.FormatErrorExactlyWithoutHeaderRoom
  refine ⟨fun s i hi hshort => ?_, fun s t i hnop h he => exec_statusCause hnop h he, rfl⟩
  obtain rfl | rfl := hi
  · exact exec_format_reports (exec_extract_format hshort)
  · exact exec_format_reports (exec_declen_format hshort)

/-! ## TRUNCATION_ERROR (R102) -/

/-- Settles O45: EXTRACT and DECLEN end in the same state, whose counts are exact by `headerDecoded_counts`. -/
theorem truncationErrorReportsTheLength : Obligations.TruncationErrorReportsTheLength := by
  unfold Obligations.TruncationErrorReportsTheLength
  refine ⟨fun s i hi hroom hshort => ?_, rfl⟩
  have hexec : exec i s = .next ((headerDecoded s).setStatus .truncationError) := by
    obtain rfl | rfl := hi
    · exact exec_extract_truncation hroom hshort
    · exact exec_declen_truncation hroom hshort
  obtain ⟨-, hneed, havail⟩ := headerDecoded_counts s
  exact ⟨_, hexec, rfl, hneed, havail⟩

end Sys2Proof.Machine
end

section
/-!
SUPPORT. Reset and boot (70_reset_and_hazards.md): the reset values (R121, R123) and the commands without a grid (R124).
The obligations of that family (O14, O59) are settled here.
-/

namespace Sys2Proof.Machine

/-! ## The reset values (R121) -/

theorem perform_reset (s : State) :
    perform .reset s = .next (State.resetWith s.dimBits s.pending s.replies) := rfl

/-- CONFIG 0x08 is the source's default: the least-significant bit, Red only (R22, R123). -/
theorem defaults_of_config {s : State} (h : s.config = 0x08#6) :
    bitIndex s = 0 ∧ ctR s = true ∧ ctG s = false ∧ ctB s = false := by
  simp [bitIndex, ctR, ctG, ctB, h]

/-- An empty payload memory has no written cell (R48). -/
theorem payRead_of_payload_nil {s : State} (h : s.payload = []) (a : Nat) : payRead s a = none := by
  rw [payRead, h, memRead]

/-- CMD holds no value and reads 0 at all times (R20). -/
theorem portRead_cmd (s : State) : portRead s 0#5 = 0 := rfl

/-- Settles O14: RESET writes each register its value; CONFIG's fields are `defaults_of_config`, the payload is
`payRead_of_payload_nil`, CMD is `portRead_cmd`. -/
theorem resetLeavesTheResetValues : Obligations.ResetLeavesTheResetValues := by
  unfold Obligations.ResetLeavesTheResetValues
  intro s
  obtain ⟨hbit, hr, hg, hb⟩ := defaults_of_config (s := State.resetWith s.dimBits s.pending s.replies) rfl
  exact ⟨_, perform_reset s, rfl, rfl, hbit, hr, hg, hb, rfl, rfl, rfl, rfl, rfl, rfl, rfl, rfl, rfl, rfl, rfl, rfl, rfl,
    rfl, rfl, rfl, payRead_of_payload_nil rfl, portRead_cmd _⟩

/-! ## The commands without a grid (R124) -/

/-- A grid without columns carries no bit (R46, R58). -/
theorem cap_of_width_zero {s : State} (hw : s.width = 0) : cap s = 0 := by
  simp [cap, hw]

/-- Settles O59: without a grid the capacity is 0, below every need, below a header and below every ARG_K; and ARG_X is out
of range. Each is where the error's own statement (O40, O44, O37) makes the command raise it. -/
theorem commandsWithoutAGridRaiseTheirErrors : Obligations.CommandsWithoutAGridRaiseTheirErrors := by
  unfold Obligations.CommandsWithoutAGridRaiseTheirErrors
  intro s hw _
  have hcap : cap s = 0 := cap_of_width_zero hw
  refine ⟨fun i hi => ?_, fun i hi => ?_, fun i hi => ?_⟩
  · obtain ⟨hcapacity, -⟩ := capacityErrorReportsBothCounts
    obtain ⟨t, hexec, ht, -⟩ := hcapacity s i hi (by omega)
    exact ⟨t, hexec, congrArg State.status ht⟩
  · obtain ⟨hformat, -⟩ := formatErrorExactlyWithoutHeaderRoom
    obtain ⟨t, hexec, ht, -⟩ := hformat s i hi (by omega)
    exact ⟨t, hexec, congrArg State.status ht⟩
  · refine ⟨s.setStatus .indexError, ?_, rfl⟩
    rw [← or_assoc] at hi
    obtain hi | hi := hi
    · exact exec_pixel_outside hi (.inl (by simp [hw]))
    · exact exec_position_outside hi (by omega)

end Sys2Proof.Machine
end

section
/-!
SUPPORT. What a host operation can do when it goes on, said once, and the invariant of the block (`State.Wf`). The
obligations O12 and O13 are settled here.
-/

namespace Sys2Proof.Machine

/-! ## What an operation can do (R17) -/

/-- Everything a host operation can leave when it goes on. -/
theorem perform_next_cases {op : HostOp} {s t : State} (h : perform op s = .next t) :
    (∃ d, op = .regWr 0#5 d ∧ exec (decodeCommand d) s = .next t) ∨
    (∃ i d, op = .regWr i d ∧ i ≠ 0#5 ∧ t = portWrite s i d) ∨
    (∃ r, ((∃ i, op = .regRd i) ∨ op = .dumpGrid ∨ ∃ a, op = .payRd a) ∧ t = s.addReply r) ∨
    (∃ w k img, op = .loadGrid w k img ∧ loadGridFits s w k img = true ∧
      t = { s with width := BitVec.ofNat 30 w, height := BitVec.ofNat 30 k, grid := pixelsOfImage img }) ∨
    (∃ a v, op = .payWr a v ∧ t = payWrite a.toNat v s) ∨
    (op = .reset ∧ t = State.resetWith s.dimBits s.pending s.replies) := by
  cases op with
  | regWr i d =>
    by_cases hi : i = 0#5
    · subst hi
      exact .inl ⟨d, rfl, h⟩
    · rw [perform_regWr hi] at h
      exact .inr (.inl ⟨i, d, rfl, hi, (Host.Outcome.next.inj h).symm⟩)
  | regRd i => exact .inr (.inr (.inl ⟨_, .inl ⟨i, rfl⟩, (Host.Outcome.next.inj h).symm⟩))
  | dumpGrid => exact .inr (.inr (.inl ⟨_, .inr (.inl rfl), (Host.Outcome.next.inj h).symm⟩))
  | payRd a =>
    obtain ⟨v, ht⟩ := perform_payRd_next h
    exact .inr (.inr (.inl ⟨_, .inr (.inr ⟨a, rfl⟩), ht⟩))
  | loadGrid w k img =>
    simp only [perform, hostLoadGrid] at h
    split at h
    · next hfit => exact .inr (.inr (.inr (.inl ⟨w, k, img, rfl, hfit, (Host.Outcome.next.inj h).symm⟩)))
    · cases h
  | payWr a v => exact .inr (.inr (.inr (.inr (.inl ⟨a, v, rfl, (Host.Outcome.next.inj h).symm⟩))))
  | reset => exact .inr (.inr (.inr (.inr (.inr ⟨rfl, (Host.Outcome.next.inj h).symm⟩))))

/-! ## The invariant and the updates of the state -/

/-- The reset values meet the invariant for every DIM_BITS the spec allows (R10, R121). -/
theorem wf_resetWith {dimBits : Nat} (hpos : 1 ≤ dimBits) (hle : dimBits ≤ 30) (ops : List HostOp) (rs : List Reply) :
    (State.resetWith dimBits ops rs).Wf where
  dimBits_pos := hpos
  dimBits_le := hle
  width_fits := Nat.two_pow_pos dimBits
  height_fits := Nat.two_pow_pos dimBits
  argX_fits := Nat.two_pow_pos dimBits
  argY_fits := Nat.two_pow_pos dimBits
  mapX_fits := Nat.two_pow_pos dimBits
  mapY_fits := Nat.two_pow_pos dimBits
  mapCh_target := (by decide : (0 : BitVec 2).toNat < 3)
  status_written := (by decide : StatusCode.ok ≠ .decodeError)
  needBits_le := (by decide : (0 : BitVec 64).toNat ≤ 34359738392)
  availBits_lt := (by decide : (0 : BitVec 64).toNat < 2 ^ 62)
  grid_full := rfl
  payload_wf := memory_wf_nil

/-- Settles O12: DIM_BITS is 30 there, within its bounds. -/
theorem resetStateMeetsTheInvariant : Obligations.ResetStateMeetsTheInvariant := by
  unfold Obligations.ResetStateMeetsTheInvariant
  exact wf_resetWith (by decide) (by decide) [] []

namespace State.Wf

variable {s : State} (hs : s.Wf)
include hs

theorem setPending (ops : List HostOp) : (s.setPending ops).Wf := { hs with }

theorem addReply (r : Reply) : (s.addReply r).Wf := { hs with }

theorem setStatus {e : StatusCode} (he : e ≠ .decodeError) : (s.setStatus e).Wf := { hs with status_written := he }

theorem setLenOut (v : BitVec 32) : (s.setLenOut v).Wf := { hs with }

theorem setBitIo (v : BitVec 1) : (s.setBitIo v).Wf := { hs with }

theorem setPixData (v : BitVec 32) : (s.setPixData v).Wf := { hs with }

theorem setGrid {g : List Pixel} (hg : g.length = s.grid.length) : (s.setGrid g).Wf :=
  { hs with grid_full := hg.trans hs.grid_full }

theorem setPayload {m : List Host.Cell} (hm : Memory.wf m) : (s.setPayload m).Wf := { hs with payload_wf := hm }

/-- The counts a command reports are within the bounds of R10 and R59. -/
theorem report {needed avail : Nat} (hn : needed ≤ 34359738392) (ha : avail < 2 ^ 62) :
    (Machine.report needed avail s).Wf :=
  { hs with
    needBits_le := by rwa [report_needBits _ _ _ (by omega)]
    availBits_lt := by rwa [report_availBits _ _ _ (by omega)] }

theorem setMapOut {x y : Dim} {c : BitVec 2} (hx : s.FitsDim x) (hy : s.FitsDim y) (hc : c.toNat < 3) (j : BitVec 3) :
    (s.setMapOut x y c j).Wf := { hs with mapX_fits := hx, mapY_fits := hy, mapCh_target := hc }

/-- The low DIM_BITS bits of port data fit a DIM_BITS-wide register (R19). -/
theorem fitsDim_dimOf (d : PortWord) : s.FitsDim (dimOf s.dimBits d) := by
  rw [State.FitsDim, dimOf_lt hs.dimBits_le]
  exact Nat.mod_lt _ (Nat.two_pow_pos _)

theorem portWrite (i : RegIndex) (d : PortWord) : (Machine.portWrite s i d).Wf := by
  rcases portWrite_cases s i d with h | h | h | h | h | h | h | h <;> rw [h]
  · exact hs
  · exact { hs with }
  · exact { hs with }
  · exact { hs with }
  · exact { hs with }
  · exact { hs with argX_fits := hs.fitsDim_dimOf d }
  · exact { hs with argY_fits := hs.fitsDim_dimOf d }
  · exact { hs with }

/-- A LOAD_GRID that fits leaves a full grid whose dimensions fit their registers (R109). -/
theorem loadGrid {w h : Nat} {img : List Byte} (hfit : loadGridFits s w h img = true) :
    State.Wf { s with width := BitVec.ofNat 30 w, height := BitVec.ofNat 30 h, grid := pixelsOfImage img } := by
  obtain ⟨hw, hh, hl⟩ := loadGridFits_iff.1 hfit
  obtain ⟨t, ht, -, hwidth, hheight, -⟩ := perform_loadGrid_fits hs.dimBits_le hw hh hl
  have heq : Host.Outcome.next _ = Host.Outcome.next t := (if_pos hfit).symm.trans ht
  obtain rfl := Host.Outcome.next.inj heq
  have hlen : (pixelsOfImage img).length = w * h := pixelsOfImage_length (hl.trans (Nat.mul_assoc 4 w h))
  exact { hs with
    width_fits := hwidth.trans_lt hw
    height_fits := hheight.trans_lt hh
    grid_full := hlen.trans (by rw [hwidth, hheight]) }

theorem payWrite (a : PayAddr) (v : Byte) : (Machine.payWrite a.toNat v s).Wf :=
  hs.setPayload (memWrite_wf hs.payload_wf a.isLt v)

end State.Wf

/-! ## The invariant and the steps -/

/-- A channel of the Channel Target has a number below 3, since it is never Alpha (R36, R56). -/
theorem channelIndex_lt_of_mem_ctList {s : State} {c : Channel} (h : c ∈ ctList s) : channelIndex c < 3 := by
  cases c with
  | a => exact absurd h (alpha_not_mem_ctList s)
  | r | g | b => decide

theorem exec_keeps_wf {i : Instr} {s t : State} (hs : s.Wf) (h : exec i s = .next t) : t.Wf := by
  have hcounts : (report (need s.payLen.toNat) (cap s) s).Wf := hs.report (need_le _) (cap_lt s)
  have hheader : (headerDecoded s).Wf := (hs.setLenOut _).report (need_le _) (cap_lt s)
  rcases exec_next_cases h with ⟨-, rfl⟩ | ⟨e, he, rfl⟩ | ⟨-, -, rfl⟩ | ⟨-, -, rfl⟩ | ⟨-, -, -, rfl⟩ | ⟨-, -, rfl⟩ |
    ⟨-, -, _, g, -, -, -, hg, rfl⟩ | ⟨-, -, -, rfl⟩ | ⟨-, -, -, m, hm, rfl⟩ | ⟨-, -, -, d, rfl⟩ |
    ⟨-, -, -, g, -, hg, rfl⟩ | ⟨-, hk, x, y, c, j, rfl, hx, hy, hc⟩ | ⟨-, -, g, -, hg, rfl⟩ | ⟨-, -, b, rfl⟩
  case inl => exact hs
  case inr.inl => exact hs.setStatus (by rcases he with ⟨rfl, -⟩ | ⟨rfl, -⟩ <;> decide)
  all_goals refine State.Wf.setStatus ?_ (by decide)
  · exact hcounts
  · exact hs.report (by decide) (cap_lt s)
  · exact hheader
  · exact hcounts
  · exact hcounts.setGrid hg
  · exact hheader
  · refine hheader.setPayload (hm ▸ payWriteRange_wf hs.payload_wf ?_)
    have := (declaredLength s).isLt
    rw [messageBytes_length]
    omega
  · exact hs.setPixData d
  · exact hs.setGrid hg
  · obtain ⟨-, -, hmx, hmy, -, -⟩ := mapPos_spec hk
    exact hs.setMapOut (Nat.lt_trans (hx ▸ hmx) hs.width_fits) (Nat.lt_trans (hy ▸ hmy) hs.height_fits)
      (hc ▸ channelIndex_lt_of_mem_ctList (mapPos_ch_mem hk)) j
  · exact hs.setGrid hg
  · exact hs.setBitIo b

theorem perform_keeps_wf {op : HostOp} {s t : State} (hs : s.Wf) (h : perform op s = .next t) : t.Wf := by
  obtain ⟨d, -, hexec⟩ | ⟨i, d, -, -, rfl⟩ | ⟨r, -, rfl⟩ | ⟨w, k, img, -, hfit, rfl⟩ | ⟨a, v, -, rfl⟩ | ⟨-, rfl⟩ :=
    perform_next_cases h
  · exact exec_keeps_wf hs hexec
  · exact hs.portWrite i d
  · exact hs.addReply r
  · exact hs.loadGrid hfit
  · exact hs.payWrite a v
  · exact wf_resetWith hs.dimBits_pos hs.dimBits_le s.pending s.replies

/-- Settles O13: an idle step changes nothing, and the host's next operation keeps the invariant by `perform_keeps_wf`. -/
theorem everyStepKeepsTheInvariant : Obligations.EveryStepKeepsTheInvariant := by
  unfold Obligations.EveryStepKeepsTheInvariant
  intro s t hs h
  cases hp : s.pending with
  | nil => exact Host.Outcome.next.inj ((step_nil hp).symm.trans h) ▸ hs
  | cons op ops => exact perform_keeps_wf (hs.setPending ops) ((step_cons hp).symm.trans h)

end Sys2Proof.Machine
end

section
/-!
SUPPORT. Codes and records (30_encoding.md): the command codes both ways, and the records of host operations read back
(R73, R82). The obligations O2, O4, O5 and O7 are settled here.
-/

namespace Sys2Proof.Machine

/-! ## Command codes (R72, R76) -/

/-- Bits [3:0] of a command's data are its code (R73). -/
theorem opField_commandData (i : Instr) : opField (commandData i) = encode i := by
  have hcode := (encode i).isLt
  apply BitVec.eq_of_toNat_eq
  simp only [opField, commandData, BitVec.extractLsb'_toNat, BitVec.toNat_setWidth, Nat.shiftRight_zero]
  omega

@[simp] theorem decodeOp_encode (i : Instr) : decodeOp (encode i) = i := by
  obtain ⟨-, -, hdecode⟩ := opcodeRow_statement i
  exact hdecode

@[simp] theorem decodeCommand_commandData (i : Instr) : decodeCommand (commandData i) = i := by
  rw [decodeCommand, opField_commandData, decodeOp_encode]

/-- Settles O2: decoding reads the code alone, and code and command determine each other. -/
theorem commandDecodeEncodeRoundTrip : Obligations.CommandDecodeEncodeRoundTrip := by
  unfold Obligations.CommandDecodeEncodeRoundTrip
  exact ⟨fun i _ => decodeCommand_commandData i,
    fun i d _ hd => (congrArg decodeOp hd).trans (decodeOp_encode i), encode_decodeOp⟩

/-! ## Records (R73) -/

/-- A field at the end of a record. -/
theorem takeHex_hexField_end {digits v : Nat} (h : v < 16 ^ digits) :
    takeHex digits (hexField digits v) = some (v, []) := by
  simpa using takeHex_hexField digits v [] h

theorem readRegWr_fields (i : RegIndex) (d : PortWord) :
    readRegWr (hexField 2 i.toNat ++ ' ' :: hexField 16 d.toNat) = some (.regWr i d) := by
  have hi := i.isLt
  simp [readRegWr, takeHex_hexField 2 i.toNat _ (by omega), takeHex_hexField_end (digits := 16) d.isLt, hi]

theorem readRegRd_field (i : RegIndex) : readRegRd (hexField 2 i.toNat) = some (.regRd i) := by
  have hi := i.isLt
  simp [readRegRd, takeHex_hexField_end (digits := 2) (v := i.toNat) (by omega), hi]

theorem readPayWr_fields (a : PayAddr) (v : Byte) :
    readPayWr (hexField 8 a.toNat ++ ' ' :: hexField 2 v.toNat) = some (.payWr a v) := by
  simp [readPayWr, takeHex_hexField 8 a.toNat _ a.isLt, takeHex_hexField_end (digits := 2) v.isLt]

theorem readPayRd_field (a : PayAddr) : readPayRd (hexField 8 a.toNat) = some (.payRd a) := by
  simp [readPayRd, takeHex_hexField_end (digits := 8) a.isLt]

/-- The text of an image is long enough to be the fuel of its own reader: each byte takes two digits. -/
theorem length_le_imageText_length (img : List Byte) :
    img.length ≤ (img.flatMap (fun v => hexField 2 v.toNat)).length := by
  simp only [List.length_flatMap, hexField_length, List.map_const', List.sum_replicate, smul_eq_mul]
  omega

theorem readLoadGrid_fields {w h : Nat} (hw : w < 2 ^ 32) (hh : h < 2 ^ 32) (img : List Byte) :
    readLoadGrid (hexField 8 w ++ ' ' :: (hexField 8 h ++ ' ' :: img.flatMap (fun v => hexField 2 v.toNat))) =
      some (.loadGrid w h img) := by
  simp [readLoadGrid, takeHex_hexField 8 w _ hw, takeHex_hexField 8 h _ hh,
    takeBytes_flatMap img _ (length_le_imageText_length img), -List.length_flatMap]

/-- The letter of a record selects its reader, and each reader undoes the fields its record writes. -/
theorem readRecord_recordOf {op : HostOp} {r : List Char} (h : recordOf op = some r) : readRecord r = some op := by
  cases op with
  | regWr i d => exact Option.some.inj h ▸ readRegWr_fields i d
  | regRd i => exact Option.some.inj h ▸ readRegRd_field i
  | loadGrid w k img =>
    simp only [recordOf] at h
    split at h
    · next hfit =>
      obtain ⟨hw, hk⟩ := hfit
      exact Option.some.inj h ▸ readLoadGrid_fields hw hk img
    · cases h
  | payWr a v => exact Option.some.inj h ▸ readPayWr_fields a v
  | payRd a => exact Option.some.inj h ▸ readPayRd_field a
  | dumpGrid | reset => exact Option.some.inj h ▸ rfl

/-- An operation the block does not refuse has a record: at most thirty bits of a dimension fit eight digits (R10). -/
theorem exists_recordOf {d : Nat} {op : HostOp} (hd : d ≤ 30) (hop : op.wellFormed d = true) :
    ∃ r, recordOf op = some r := by
  cases op with
  | loadGrid w k img =>
    have hpow : 2 ^ d ≤ 2 ^ 32 := Nat.pow_le_pow_right (by decide) (by omega)
    obtain ⟨⟨hw, hk⟩, -⟩ : (w < 2 ^ d ∧ k < 2 ^ d) ∧ img.length = 4 * w * k := by
      simpa [HostOp.wellFormed] using hop
    exact ⟨_, if_pos ⟨Nat.lt_of_lt_of_le hw hpow, Nat.lt_of_lt_of_le hk hpow⟩⟩
  | regWr i d | regRd i | dumpGrid | payWr a v | payRd a | reset => exact ⟨_, rfl⟩

/-- Settles O4 by `readRecord_recordOf` and `exists_recordOf`. -/
theorem hostRecordRoundTrip : Obligations.HostRecordRoundTrip := by
  unfold Obligations.HostRecordRoundTrip
  exact ⟨fun op r h => readRecord_recordOf h, fun d op hd hop => exists_recordOf hd hop⟩

/-! ## The record of a command (R73) -/

theorem hexField_zero (digits : Nat) : hexField digits 0 = List.replicate digits '0' := by
  induction digits with
  | zero => rfl
  | succ n ih =>
    rw [hexField, Nat.zero_div, ih, List.replicate_succ']
    rfl

/-- A number of one digit is written as zeros and that digit. -/
theorem hexField_of_lt {v : Nat} (h : v < 16) (digits : Nat) :
    hexField (digits + 1) v = List.replicate digits '0' ++ [hexDigit v] := by
  rw [hexField, Nat.div_eq_of_lt h, hexField_zero, Nat.mod_eq_of_lt h]

/-- Settles O5: index 0 is two zeros, and the data of a command are fifteen zeros and the digit of its code. -/
theorem commandRecordIsItsDigit : Obligations.CommandRecordIsItsDigit := by
  unfold Obligations.CommandRecordIsItsDigit
  intro op
  have hdata : (op.setWidth 64).toNat = op.toNat := BitVec.toNat_setWidth_of_le (by decide)
  refine ⟨hexDigit op.toNat, hexDigitValue_hexDigit op.isLt, ?_⟩
  rw [recordOf, hdata, hexField_of_lt op.isLt]
  rfl

/-! ## Programs (R82) -/

theorem map_readRecord_recordsOf {ops : List HostOp} {rs : List (List Char)} (h : recordsOf ops = some rs) :
    rs.map readRecord = ops.map some := by
  induction ops generalizing rs with
  | nil =>
    obtain rfl := Option.some.inj h
    rfl
  | cons op ops ih =>
    simp only [recordsOf] at h
    split at h
    · next r rs' hr hrs =>
      obtain rfl := Option.some.inj h
      rw [List.map_cons, List.map_cons, readRecord_recordOf hr, ih hrs]
    · cases h

/-- Settles O7, by `map_readRecord_recordsOf` on the operations the lines expand to. -/
theorem programRecordsReadBack : Obligations.ProgramRecordsReadBack := by
  unfold Obligations.ProgramRecordsReadBack
  intro images p rs h
  simp only [encodeProgram] at h
  split at h
  · next ops hops => exact ⟨ops, hops, map_readRecord_recordsOf h⟩
  · cases h

end Sys2Proof.Machine
end

section
/-!
SUPPORT. Rules about all commands and operations: what an error leaves (R99), which registers a command writes (R18), who
writes STATUS (R104, R106), the payload memory (R49) and Alpha (R22), and that extraction is total (R90). The obligations
O46, O53, O54 and O56 to O58 are settled here.
-/

namespace Sys2Proof.Machine

/-! ## Precise errors (R99) -/

/-- Settles O53: of the shapes of `exec_next_cases`, those with another STATUS than OK write the report registers at
most. -/
theorem errorsArePrecise : Obligations.ErrorsArePrecise := by
  unfold Obligations.ErrorsArePrecise
  intro s t i hnop h herr
  rcases exec_next_cases h with ⟨rfl, -⟩ | ⟨e, -, rfl⟩ | ⟨-, -, rfl⟩ | ⟨-, -, rfl⟩ | ⟨-, -, -, rfl⟩ | ⟨-, -, rfl⟩ |
    ⟨-, -, _, g, -, -, -, -, rfl⟩ | ⟨-, -, -, rfl⟩ | ⟨-, -, -, m, -, rfl⟩ | ⟨-, -, -, d, rfl⟩ |
    ⟨-, -, -, g, -, -, rfl⟩ | ⟨-, -, x, y, c, j, rfl, -⟩ | ⟨-, -, g, -, -, rfl⟩ | ⟨-, -, b, rfl⟩
  · exact absurd rfl hnop
  · rfl
  · rfl
  · rfl
  · rfl
  all_goals exact absurd rfl herr

/-! ## The registers a command writes (R18) -/

/-- Settles O54: each shape of `exec_next_cases` names its command and the registers it writes. -/
theorem commandsWriteOnlyTheirRegisters : Obligations.CommandsWriteOnlyTheirRegisters := by
  unfold Obligations.CommandsWriteOnlyTheirRegisters
  intro s t i h
  rcases exec_next_cases h with ⟨rfl, rfl⟩ |
    ⟨e, ⟨-, rfl | rfl | rfl | rfl | rfl⟩ | ⟨-, ⟨x, rfl⟩ | ⟨x, rfl⟩⟩, rfl⟩ | ⟨rfl | rfl, -, rfl⟩ | ⟨rfl | rfl, -, rfl⟩ |
    ⟨rfl | rfl, -, -, rfl⟩ | ⟨rfl, -, rfl⟩ | ⟨rfl, -, _, g, -, -, -, -, rfl⟩ | ⟨rfl, -, -, rfl⟩ |
    ⟨rfl, -, -, m, -, rfl⟩ | ⟨rfl, -, -, d, rfl⟩ | ⟨rfl, -, -, g, -, -, rfl⟩ | ⟨rfl, -, x, y, c, j, rfl, -⟩ |
    ⟨rfl, -, g, -, -, rfl⟩ | ⟨rfl, -, b, rfl⟩
  all_goals simp [report]

/-! ## STATUS (R21, R104, R106) -/

theorem statusCode_le (c : StatusCode) : (statusCode c).toNat ≤ 6 := by
  cases c <;> decide

/-- No command but NOP ends with DECODE_ERROR: it has no cause (R104). -/
theorem exec_status_ne_decodeError {i : Instr} {s t : State} (hnop : i ≠ .nop) (h : exec i s = .next t) :
    t.status ≠ .decodeError := fun hcode => exec_statusCause hnop h hcode

/-- A port write changes no register but the seven read-write ones, no memory and nothing of the model's own (R18, R19). -/
theorem portWrite_frame (s : State) (i : RegIndex) (d : PortWord) :
    portWrite s i d = { s with
      config := (portWrite s i d).config, payLen := (portWrite s i d).payLen, argK := (portWrite s i d).argK,
      bitIo := (portWrite s i d).bitIo, argX := (portWrite s i d).argX, argY := (portWrite s i d).argY,
      pixData := (portWrite s i d).pixData } := by
  rcases portWrite_cases s i d with h | h | h | h | h | h | h | h <;> rw [h]

/-- An operation that is neither RESET nor a CMD write keeps STATUS. -/
theorem perform_keeps_status {op : HostOp} {s t : State} (h : perform op s = .next t) (hreset : op ≠ .reset)
    (hcmd : ∀ d, op ≠ .regWr 0#5 d) : t.status = s.status := by
  obtain ⟨d, rfl, -⟩ | ⟨i, d, -, -, rfl⟩ | ⟨r, -, rfl⟩ | ⟨w, k, img, -, -, rfl⟩ | ⟨a, v, -, rfl⟩ | ⟨rfl, -⟩ :=
    perform_next_cases h
  · exact absurd rfl (hcmd d)
  · rw [portWrite_frame]
  · rfl
  · rfl
  · rfl
  · exact absurd rfl hreset

/-- An operation keeps STATUS or leaves another code than DECODE_ERROR (R104). -/
theorem perform_status_ne_decodeError {op : HostOp} {s t : State} (h : perform op s = .next t) :
    t.status = s.status ∨ t.status ≠ .decodeError := by
  by_cases hreset : op = .reset
  · subst hreset
    obtain rfl := Host.Outcome.next.inj h
    exact .inr (by decide : StatusCode.ok ≠ .decodeError)
  by_cases hcmd : ∃ d, op = .regWr 0#5 d
  · obtain ⟨d, rfl⟩ := hcmd
    rw [perform_cmd] at h
    by_cases hnop : decodeCommand d = .nop
    · rw [hnop, exec_nop] at h
      exact .inl (congrArg State.status (Host.Outcome.next.inj h).symm)
    · exact .inr (exec_status_ne_decodeError hnop h)
  · exact .inl (perform_keeps_status h hreset (not_exists.1 hcmd))

/-- Settles O58: the codes one by one; what an operation and a command do to STATUS is `perform_status_ne_decodeError`,
`exec_status_ne_decodeError` and `perform_keeps_status`. -/
theorem statusIsWrittenByCommandsOnly : Obligations.StatusIsWrittenByCommandsOnly := by
  unfold Obligations.StatusIsWrittenByCommandsOnly
  exact ⟨⟨rfl, rfl, rfl, rfl, rfl, rfl, rfl, statusCode_le⟩, fun s t op h => perform_status_ne_decodeError h,
    fun s t i hnop h => exec_status_ne_decodeError hnop h,
    fun s t op h hreset hcmd => perform_keeps_status h hreset hcmd⟩

/-! ## The payload memory (R49) -/

/-- Settles O56: of the shapes of `perform_next_cases`, only PAY_WR, RESET and a command touch it, and of the commands
only EXTRACT by `exec_memory_frame`. -/
theorem onlyNamedOperationsChangeThePayload : Obligations.OnlyNamedOperationsChangeThePayload := by
  unfold Obligations.OnlyNamedOperationsChangeThePayload
  intro s t op h hpay hreset hcmd
  obtain ⟨d, rfl, hexec⟩ | ⟨i, d, -, -, rfl⟩ | ⟨r, -, rfl⟩ | ⟨w, k, img, -, -, rfl⟩ | ⟨a, v, rfl, -⟩ | ⟨rfl, -⟩ :=
    perform_next_cases h
  · obtain ⟨-, -, -, -, hkeep⟩ := exec_memory_frame hexec
    exact hkeep (hcmd d rfl)
  · obtain ⟨-, -, -, hkeep⟩ := portWrite_keeps_memories s i d
    exact hkeep
  · rfl
  · rfl
  · exact absurd rfl (hpay a v)
  · exact absurd rfl hreset

/-! ## Alpha (R22) -/

/-- A pixel read depends on the grid and its width only. -/
theorem pixRead_congr {s t : State} (hw : t.width = s.width) (hg : t.grid = s.grid) (x y : Nat) (c : Channel) :
    pixRead t x y c = pixRead s x y c := by
  rw [pixRead, pixRead, pixelIndex, pixelIndex, hw, hg]

/-- A carrier bit write keeps every channel that is no target. -/
theorem pixRead_writeCarrierBit_of_not_target {s : State} (hg : s.GridFull) {k : Nat} (hk : k < cap s) (b : Bool)
    {x y : Nat} (hx : x < s.width.toNat) {c : Channel} (hc : c ∉ ctList s) :
    pixRead (writeCarrierBit k b s) x y c = pixRead s x y c := by
  refine BitVec.eq_of_getLsbD_eq fun j _ => (getLsbD_writeCarrierBit hg hk b hx c j).trans (if_neg fun he => hc ?_)
  have hmem := mapPos_ch_mem hk
  rwa [he] at hmem

/-- Settles O57: EMBED and WRBIT write target channels, and Alpha is none; no other command but SETPIX writes a pixel. -/
theorem onlySetpixWritesAlpha : Obligations.OnlySetpixWritesAlpha := by
  unfold Obligations.OnlySetpixWritesAlpha
  intro s t i hg hset h x y hx _
  obtain ⟨-, hw, -, hgrid, -⟩ := exec_memory_frame h
  by_cases hembed : i = .embed
  · subst hembed
    obtain rfl | ⟨hroom, bytes, hl, rfl⟩ := exec_embed_next h
    · rfl
    · exact pixRead_embedded_of_not_target hg hl hroom hx (alpha_not_mem_ctList s)
  by_cases hwrbit : i = .wrbit
  · subst hwrbit
    rcases Nat.lt_or_ge s.argK.toNat (cap s) with hk | hk
    · obtain rfl := Host.Outcome.next.inj ((exec_wrbit_inside hk).symm.trans h)
      exact pixRead_writeCarrierBit_of_not_target hg hk _ hx (alpha_not_mem_ctList s)
    · obtain rfl := Host.Outcome.next.inj ((exec_wrbit_outside hk).symm.trans h)
      rfl
  · exact pixRead_congr hw (hgrid hembed hwrbit hset) x y .a

/-! ## Extraction is total (R90) -/

/-- Settles O46: without room for a header FORMAT_ERROR, and with it the frame fits or is truncated. -/
theorem extractionIsTotal : Obligations.ExtractionIsTotal := by
  unfold Obligations.ExtractionIsTotal
  intro s i hi
  rcases Nat.lt_or_ge (cap s) 32 with hc | hc
  · obtain rfl | rfl := hi
    · exact ⟨_, exec_extract_format hc, .inr (.inl rfl)⟩
    · exact ⟨_, exec_declen_format hc, .inr (.inl rfl)⟩
  rcases Nat.lt_or_ge (cap s) (need (declaredLength s).toNat) with hn | hn
  · obtain rfl | rfl := hi
    · exact ⟨_, exec_extract_truncation hc hn, .inr (.inr rfl)⟩
    · exact ⟨_, exec_declen_truncation hc hn, .inr (.inr rfl)⟩
  · obtain rfl | rfl := hi
    · exact ⟨_, exec_extract_fits hc hn, .inl rfl⟩
    · exact ⟨_, exec_declen_fits hc hn, .inl rfl⟩

end Sys2Proof.Machine
end

section
/-!
SUPPORT. Steps and the host port (10_state.md R16 to R20, 70_reset_and_hazards.md): the queue and the run of a host program,
power-on, and what REG_RD, REG_WR, PAY_WR and PAY_RD do. The obligations O8 to O10, O15 to O18 and O21 are settled here.
-/

namespace Sys2Proof.Machine

/-! ## Steps and the queue (R16, R65, R135) -/

/-- The table word of a command is the data of its CMD write. -/
theorem tableData_encode (i : Instr) : tableData 8 (encode i).toNat = commandData i := by
  have hcode := (encode i).isLt
  rw [tableData, Nat.mod_eq_of_lt (by omega), ← commandData_eq_ofNat]

/-- Settles O8: in both cases a CMD write is at the head of the queue; CMD reads 0 by `portRead_cmd`. -/
theorem stepRunsTheDecodedCommand : Obligations.StepRunsTheDecodedCommand := by
  unfold Obligations.StepRunsTheDecodedCommand
  refine ⟨fun s d ops hp => step_cons hp, fun s i _ => ?_, portRead_cmd⟩
  calc step (s.withFetchWord 8 (encode i).toNat)
    _ = perform (.regWr 0#5 (tableData 8 (encode i).toNat)) s := rfl
    _ = exec i s := by rw [tableData_encode, perform_cmd, decodeCommand_commandData]

/-- An operation keeps what the host has still to issue, the parameter and the results already returned. -/
theorem perform_keeps_host_side {op : HostOp} {s t : State} (h : perform op s = .next t) :
    t.pending = s.pending ∧ t.dimBits = s.dimBits ∧ s.replies <+: t.replies := by
  obtain ⟨d, -, hexec⟩ | ⟨i, d, -, -, rfl⟩ | ⟨r, -, rfl⟩ | ⟨w, k, img, -, -, rfl⟩ | ⟨a, v, -, rfl⟩ | ⟨-, rfl⟩ :=
    perform_next_cases h
  · obtain ⟨⟨-, -, -, -, -, -, -, hdim, hpending, hreplies⟩, -⟩ := commandsWriteOnlyTheirRegisters s t _ hexec
    exact ⟨hpending, hdim, hreplies ▸ List.prefix_rfl⟩
  · rw [portWrite_frame]
    exact ⟨rfl, rfl, List.prefix_rfl⟩
  · exact ⟨rfl, rfl, List.prefix_append s.replies [r]⟩
  all_goals exact ⟨rfl, rfl, List.prefix_rfl⟩

/-- Settles O9: a step is the head of the queue, performed at the state without it, by `step_cons`. -/
theorem operationsRunInIssueOrder : Obligations.OperationsRunInIssueOrder := by
  unfold Obligations.OperationsRunInIssueOrder
  exact ⟨fun s hp => step_nil hp, fun s op ops hp => step_cons hp,
    fun s t op ops hp h => perform_keeps_host_side ((step_cons hp).symm.trans h)⟩

/-- A step over a queue is the first operation at the state with an empty queue, and the rest stays in the queue. -/
theorem step_withProgram_cons (s : State) (op : HostOp) (ops : List HostOp) :
    step (s.withProgram (op :: ops)) = withPending ops (perform op (s.withProgram [])) := by
  rw [← perform_setPending]
  exact step_cons (s := s.withProgram (op :: ops)) rfl

/-- Performed with an empty queue, an operation leaves it empty. -/
theorem withProgram_nil_of_perform {op : HostOp} {s t : State} (h : perform op (s.withProgram []) = .next t) :
    t.withProgram [] = t := by
  obtain ⟨hpending, -⟩ := perform_keeps_host_side h
  rw [State.withProgram, State.setPending, ← show t.pending = [] from hpending]

/-- Settles O10, by induction on the program: one step is its first operation, at which the run and the steps stop or go on
together. -/
theorem stepsRunTheHostProgram : Obligations.StepsRunTheHostProgram := by
  unfold Obligations.StepsRunTheHostProgram
  intro ops
  induction ops with
  | nil => exact fun s => rfl
  | cons op ops ih =>
    intro s
    have hstep := step_withProgram_cons s op ops
    rw [List.length_cons, runProgram]
    cases h : perform op (s.withProgram []) with
    | next t =>
      rw [h] at hstep
      rw [core_run_next hstep]
      exact (ih t).trans (by rw [withProgram_nil_of_perform h])
    | fault f =>
      rw [h] at hstep
      exact core_run_fault hstep
    | refused r =>
      rw [h] at hstep
      exact core_run_refused hstep

/-! ## Power-on (R122) -/

/-- Settles O15: both are `State.resetWith`, with the parameter and the host's side of the port kept. -/
theorem powerOnEqualsReset : Obligations.PowerOnEqualsReset := by
  unfold Obligations.PowerOnEqualsReset
  exact perform_reset

/-! ## Reading a register (R18, R19) -/

theorem portRead_unassigned (s : State) {i : RegIndex} (h : 18 ≤ i.toNat) : portRead s i = 0 := by
  rw [portRead, regAt_unassigned h]

/-- Settles O16: each index reads its register, zero-extended to the 64 bits of the port. -/
theorem portReadsZeroExtendedRegisters : Obligations.PortReadsZeroExtendedRegisters := by
  unfold Obligations.PortReadsZeroExtendedRegisters
  intro s
  have zext : ∀ {w : Nat} (v : BitVec w), w ≤ 64 → (v.setWidth 64).toNat = v.toNat :=
    fun v hw => BitVec.toNat_setWidth_of_le hw
  exact ⟨portRead_cmd s, zext _ (by decide), zext s.config (by decide), zext s.width (by decide),
    zext s.height (by decide), zext s.payLen (by decide), zext s.lenOut (by decide), rfl, rfl, rfl,
    zext s.bitIo (by decide), zext s.argX (by decide), zext s.argY (by decide), zext s.pixData (by decide),
    zext s.mapX (by decide), zext s.mapY (by decide), zext s.mapCh (by decide), zext s.mapBit (by decide),
    fun i hi => portRead_unassigned s hi, fun i => rfl⟩

/-! ## Writing a register (R18, R19) -/

/-- An index that names a register is the index of that register. -/
theorem regIndex_of_regAt {i : RegIndex} {r : RegName} (h : regAt i = some r) : regIndex r = i := by
  have key : ∀ i : RegIndex, ∀ r ∈ regAt i, regIndex r = i := by decide
  exact key i r h

/-- A write to a register keeps the value of every other one. -/
theorem regValue_regWrite_of_ne (s : State) (d : PortWord) {r q : RegName} (h : q ≠ r) :
    regValue (regWrite s d r) q = regValue s q := by
  cases r with
  | config | payLen | argK | bitIo | argX | argY | pixData => cases q <;> simp_all [regValue, regWrite]
  | cmd | status | width | height | lenOut | needBits | availBits | mapX | mapY | mapCh | mapBit => rfl

theorem portRead_portWrite_of_ne (s : State) (d : PortWord) {i j : RegIndex} (h : j ≠ i) :
    portRead (portWrite s i d) j = portRead s j := by
  rw [portRead, portRead, portWrite]
  cases hi : regAt i with
  | none => rfl
  | some r =>
    cases hj : regAt j with
    | none => rfl
    | some q =>
      refine regValue_regWrite_of_ne s d fun hqr => h ?_
      rw [← regIndex_of_regAt hj, ← regIndex_of_regAt hi, hqr]

/-- The low `w` bits of port data, read back through the port. -/
theorem toNat_setWidth_setWidth_port {w : Nat} (hw : w ≤ 64) (d : PortWord) :
    ((d.setWidth w).setWidth 64).toNat = d.toNat % 2 ^ w := by
  rw [BitVec.toNat_setWidth_of_le hw, BitVec.toNat_setWidth]

/-- A read-write register of width `w` reads back the low `w` bits of the data written to it. -/
theorem portRead_portWrite_self {s : State} {i : RegIndex} {w : Nat} (d : PortWord) (hd : s.dimBits ≤ 30)
    (hi : (i, w) ∈ [(2#5, 6), (5#5, 32), (9#5, 64), (10#5, 1), (11#5, s.dimBits), (12#5, s.dimBits), (13#5, 32)]) :
    (portRead (portWrite s i d) i).toNat = d.toNat % 2 ^ w := by
  have hdim : ((dimOf s.dimBits d).setWidth 64).toNat = d.toNat % 2 ^ s.dimBits :=
    (BitVec.toNat_setWidth_of_le (by decide)).trans (dimOf_lt hd d)
  simp only [List.mem_cons, Prod.mk.injEq, List.not_mem_nil, or_false] at hi
  rcases hi with ⟨rfl, rfl⟩ | ⟨rfl, rfl⟩ | ⟨rfl, rfl⟩ | ⟨rfl, rfl⟩ | ⟨rfl, rfl⟩ | ⟨rfl, rfl⟩ | ⟨rfl, rfl⟩
  · exact toNat_setWidth_setWidth_port (by decide) d
  · exact toNat_setWidth_setWidth_port (by decide) d
  · exact (Nat.mod_eq_of_lt d.isLt).symm
  · exact toNat_setWidth_setWidth_port (by decide) d
  · exact hdim
  · exact hdim
  · exact toNat_setWidth_setWidth_port (by decide) d

/-- Settles O17: the index written by `portRead_portWrite_self`, the others by `portRead_portWrite_of_ne`, the rest of the
state by `portWrite_frame`. -/
theorem portWriteStoresTheLowBits : Obligations.PortWriteStoresTheLowBits := by
  unfold Obligations.PortWriteStoresTheLowBits
  intro s i w d _ hd hi
  have hne : i ≠ 0#5 := by
    rintro rfl
    simp at hi
  refine ⟨_, perform_regWr hne d s, portRead_portWrite_self d hd hi, fun j hj => portRead_portWrite_of_ne s d hj, ?_⟩
  rw [portWrite_frame]
  exact ⟨rfl, rfl, rfl, rfl, rfl⟩

/-- Settles O18: a read-only register keeps its value, and an index from 18 on names no register. -/
theorem readOnlyAndUnassignedWritesAreIgnored : Obligations.ReadOnlyAndUnassignedWritesAreIgnored := by
  unfold Obligations.ReadOnlyAndUnassignedWritesAreIgnored
  intro s i d hi
  obtain hi | hi := hi
  · simp only [List.mem_cons, List.not_mem_nil, or_false] at hi
    rcases hi with rfl | rfl | rfl | rfl | rfl | rfl | rfl | rfl | rfl | rfl <;> rfl
  · have hne : i ≠ 0#5 := by
      rintro rfl
      simp at hi
    rw [perform_regWr hne, portWrite, regAt_unassigned hi]

/-! ## The payload port (R47) -/

/-- PAY_RD of a written cell returns its byte and changes nothing else (R17). -/
theorem perform_payRd_written {s : State} {a : PayAddr} {v : Byte} (h : payRead s a.toNat = some v) :
    perform (.payRd a) s = .next (s.addReply (.byte v)) := by
  rw [perform, hostPayRd, h]

/-- Settles O21: every cell after the write is known from `payRead_payWrite`. -/
theorem payloadWriteThenRead : Obligations.PayloadWriteThenRead := by
  unfold Obligations.PayloadWriteThenRead
  intro s a v
  have hwritten : payRead (payWrite a.toNat v s) a.toNat = some v := (payRead_payWrite s _ _ v).trans (if_pos rfl)
  exact ⟨payWrite a.toNat v s, rfl, rfl, hwritten, fun b hb => (payRead_payWrite s _ b v).trans (if_neg hb),
    perform_payRd_written hwritten⟩

end Sys2Proof.Machine
end

section
/-!
SUPPORT. Carrier bits and frames (20_memory.md R57, R62, R66; 40_pixel_access.md; 42_extract.md R89, R90): the decoding sums,
carrier writes in either order, and what reading back gives after SETPIX and after EMBED. The obligations O28, O31, O36,
O47 and O49 are settled here.
-/

namespace Sys2Proof.Machine

/-! ## The decoding sums (R62) -/

/-- Settles O28: the bit, the header and a message byte each have their lemma, and the sums hold below the capacity too. -/
theorem carrierBitsDecodeBySums : Obligations.CarrierBitsDecodeBySums := by
  unfold Obligations.CarrierBitsDecodeBySums
  exact fun s => ⟨fun k _ => cbit_eq_getLsbD s k, fun _ => declaredLength_toNat s, fun i _ => messageByte_toNat s i⟩

/-! ## Carrier writes in either order (R66) -/

/-- A pixel with bit `i` of channel `c` replaced. -/
def pixelSetBit (c : Channel) (i : Nat) (b : Bool) (p : Pixel) : Pixel := pixelSet p c (wbit (pixelGet p c) i b)

theorem pixelSetBit_comm {c d : Channel} (h : c ≠ d) (i : Nat) (a b : Bool) (p : Pixel) :
    pixelSetBit c i a (pixelSetBit d i b p) = pixelSetBit d i b (pixelSetBit c i a p) := by
  simp only [pixelSetBit, pixelGet_pixelSet, if_neg h, if_neg h.symm]
  exact pixelSet_comm p h.symm _ _

/-- A carrier bit write modifies one pixel by itself: what it reads is that pixel. -/
theorem writeCarrierBit_eq_modify (k : Nat) (b : Bool) (s : State) :
    writeCarrierBit k b s = s.setGrid (s.grid.modify (pixelIndex s (mapPos s k).x (mapPos s k).y)
      (pixelSetBit (mapPos s k).ch (bitIndex s) b)) := by
  refine congrArg s.setGrid (List.ext_getElem? fun n => ?_)
  rw [List.getElem?_modify, List.getElem?_modify]
  by_cases hn : pixelIndex s (mapPos s k).x (mapPos s k).y = n
  · subst hn
    cases hp : s.grid[pixelIndex s (mapPos s k).x (mapPos s k).y]? with
    | none => rfl
    | some p =>
      have hread : pixRead s (mapPos s k).x (mapPos s k).y (mapPos s k).ch = pixelGet p (mapPos s k).ch := by
        rw [pixRead, hp]
      have hbit : (mapPos s k).bit = bitIndex s := rfl
      simp [pixelSetBit, hread, hbit]
  · simp [hn]

/-- Different positions below the capacity lie in different pixels or in different channels of one pixel (R57). -/
theorem mapPos_separate {s : State} {k l : Nat} (hk : k < cap s) (hl : l < cap s) (hne : k ≠ l)
    (hp : pixelIndex s (mapPos s k).x (mapPos s k).y = pixelIndex s (mapPos s l).x (mapPos s l).y) :
    (mapPos s k).ch ≠ (mapPos s l).ch := by
  obtain ⟨-, -, hxk, -, -, -⟩ := mapPos_spec hk
  obtain ⟨-, -, hxl, -, -, -⟩ := mapPos_spec hl
  obtain ⟨hx, hy⟩ := rowMajor_inj hxk hxl hp
  exact fun hc => hne (mapPos_inj hk hl hx hy hc)

/-- Settles O31: two carrier bit writes modify two pixels, or two channels of one, by `mapPos_separate`. -/
theorem carrierWritesCommute : Obligations.CarrierWritesCommute := by
  unfold Obligations.CarrierWritesCommute
  intro s k l b c hk hl hne
  simp only [writeCarrierBit_eq_modify]
  refine congrArg s.setGrid ?_
  show (s.grid.modify (pixelIndex s (mapPos s l).x (mapPos s l).y) _).modify
      (pixelIndex s (mapPos s k).x (mapPos s k).y) _ = _
  by_cases hp : pixelIndex s (mapPos s k).x (mapPos s k).y = pixelIndex s (mapPos s l).x (mapPos s l).y
  · have hch := mapPos_separate hk hl hne hp
    rw [hp, List.modify_modify_eq]
    refine Eq.trans ?_ (List.modify_modify_eq ..).symm
    exact congrArg (s.grid.modify _) (funext fun p => pixelSetBit_comm hch _ b c p)
  · exact List.modify_modify_ne _ _ _ (Ne.symm hp)

/-! ## GETPIX after SETPIX (R83, R84) -/

/-- Settles O36: GETPIX packs the four channels SETPIX unpacked from PIX_DATA. -/
theorem getpixAfterSetpixReadsBack : Obligations.GetpixAfterSetpixReadsBack := by
  unfold Obligations.GetpixAfterSetpixReadsBack
  intro s t hg h hok d
  by_cases hr : s.argX.toNat < s.width.toNat ∧ s.argY.toNat < s.height.toNat
  · obtain ⟨hx, hy⟩ := hr
    obtain rfl := Host.Outcome.next.inj ((exec_setpix_inside hx hy).symm.trans h)
    refine ⟨_, exec_getpix_inside hx hy, rfl, ?_⟩
    have written : ∀ c, pixRead (s.setGrid (setpixGrid s)) s.argX.toNat s.argY.toNat c = unpackChannel s.pixData c :=
      fun c => (pixRead_setpixGrid hg hx hy hx c).trans (if_pos ⟨rfl, rfl⟩)
    calc packPixel _ _ _ _
      _ = packPixel (unpackChannel s.pixData .r) (unpackChannel s.pixData .g) (unpackChannel s.pixData .b)
          (unpackChannel s.pixData .a) := by rw [← written, ← written, ← written, ← written]; rfl
      _ = s.pixData := packPixel_unpackChannel s.pixData
  · obtain rfl := Host.Outcome.next.inj ((exec_setpix_outside (by omega)).symm.trans h)
    cases hok

/-! ## EXTRACT after EMBED (R90) -/

section
variable {s : State} {bytes : List Byte} (hg : s.GridFull) (hl : bytes.length = s.payLen.toNat)
  (hroom : need s.payLen.toNat ≤ cap s)
include hg hl hroom

/-- The header of an embedded state spells the length (R55, R62). -/
theorem declaredLength_embedded : declaredLength (embedded s bytes) = s.payLen := by
  refine BitVec.eq_of_getLsbD_eq fun j hj => ?_
  have hbit := getLsbD_declaredLength (embedded s bytes) (31 - j) (by omega)
  rw [cbit_embedded_of_envelope hg hl hroom (envelope_header s.payLen bytes (31 - j) (by omega))] at hbit
  rwa [show 31 - (31 - j) = j by omega] at hbit

/-- A message byte of an embedded state is the byte embedded (R55, R62). -/
theorem messageByte_embedded {i : Nat} {v : Byte} (hv : bytes[i]? = some v) : messageByte (embedded s bytes) i = v := by
  refine BitVec.eq_of_getLsbD_eq fun j hj => ?_
  have hbit := getLsbD_messageByte (embedded s bytes) i (7 - j) (by omega)
  rw [cbit_embedded_of_envelope hg hl hroom (envelope_message s.payLen bytes i (7 - j) v hv (by omega))] at hbit
  rwa [show 7 - (7 - j) = j by omega] at hbit

end

/-- Settles O47: EXTRACT reads the grid, the dimensions and CONFIG only, and those spell the length and the bytes that EMBED
read. -/
theorem extractAfterEmbedRoundTrip : Obligations.ExtractAfterEmbedRoundTrip := by
  unfold Obligations.ExtractAfterEmbedRoundTrip
  intro s t u hg h hok hgrid hw hh hconf
  rcases exec_embed_cases s with ⟨-, he⟩ | ⟨-, a, -, -, -, he⟩ | ⟨hroom, bytes, hl, hbytes, he⟩
  · obtain rfl := Host.Outcome.next.inj (he.symm.trans h)
    cases hok
  · cases he.symm.trans h
  obtain rfl : embedded s bytes = t := Host.Outcome.next.inj (he.symm.trans h)
  have hcap : cap u = cap s := (cap_congr hconf hw hh).trans (cap_congr rfl rfl rfl)
  have hlen : declaredLength u = s.payLen :=
    (declaredLength_congr hconf hw hgrid).trans (declaredLength_embedded hg hl hroom)
  have hneed : need (declaredLength u).toNat ≤ cap u := by rwa [hlen, hcap]
  have hheader : 32 ≤ cap u := Nat.le_trans (Nat.le_add_right ..) hneed
  refine ⟨extracted u, exec_extract_fits hheader hneed, rfl, hlen, fun i hi => ?_⟩
  have hv := List.getElem?_eq_getElem (hl ▸ hi : i < bytes.length)
  rw [payRead_extracted, if_pos (hlen ▸ hi), hbytes i hi, hv, messageByte_congr hconf hw hgrid,
    messageByte_embedded hg hl hroom hv]

/-! ## EXTRACT reads the frame only (R62, R89) -/

/-- Carrier bits that agree one by one agree as a run. -/
theorem carrierBits_eq_of_cbit_eq {s u : State} {k n : Nat} (h : ∀ j < n, cbit u (k + j) = cbit s (k + j)) :
    carrierBits u k n = carrierBits s k n := by
  induction n with
  | zero => rfl
  | succ n ih =>
    rw [carrierBits_succ_end, carrierBits_succ_end, ih fun j hj => h j (by omega), h n (by omega)]

/-- The declared length depends on the first 32 carrier bits only. -/
theorem declaredLength_eq_of_cbit_eq {s u : State} (h : ∀ k < 32, cbit u k = cbit s k) :
    declaredLength u = declaredLength s := by
  rw [declaredLength, declaredLength, carrierBits_eq_of_cbit_eq fun j hj => by simpa using h j hj]

/-- The first `n` message bytes depend on the carrier bits of their frame only. -/
theorem messageBytes_eq_of_cbit_eq {s u : State} {n : Nat} (h : ∀ k < need n, cbit u k = cbit s k) :
    messageBytes u 0 n = messageBytes s 0 n := by
  refine List.ext_getElem? fun i => ?_
  by_cases hi : i < n
  · rw [messageBytes_getElem? u 0 n i hi, messageBytes_getElem? s 0 n i hi, messageByte, messageByte,
      carrierBits_eq_of_cbit_eq fun j hj => h _ (by simp only [need]; omega)]
  · rw [List.getElem?_eq_none (by rw [messageBytes_length]; omega),
      List.getElem?_eq_none (by rw [messageBytes_length]; omega)]

/-- What a range write leaves in the payload memory does not depend on the grid. -/
theorem payWriteRange_setGrid (g : List Pixel) (a : Nat) (bytes : List Byte) (s : State) :
    payWriteRange a bytes (s.setGrid g) = (payWriteRange a bytes s).setGrid g := by
  induction bytes generalizing a s with
  | nil => rfl
  | cons v vs ih => exact ih (a + 1) (payWrite a v s)

section
variable {s : State} {g : List Pixel}

/-- With the declared length the same, DECLEN does the same on both grids. -/
theorem exec_declen_setGrid (hlen : 32 ≤ cap s → declaredLength (s.setGrid g) = declaredLength s) :
    ∃ t, exec .declen s = .next t ∧ exec .declen (s.setGrid g) = .next (t.setGrid g) := by
  have hcap : cap (s.setGrid g) = cap s := rfl
  rcases Nat.lt_or_ge (cap s) 32 with hc | hc
  · exact ⟨_, exec_declen_format hc, exec_declen_format (s := s.setGrid g) hc⟩
  · refine ⟨_, exec_declen_eq hc, (exec_declen_eq (s := s.setGrid g) hc).trans ?_⟩
    rw [headerDecoded, headerDecoded, hlen hc, hcap]
    rfl

/-- With the declared length and the message the same, EXTRACT does the same on both grids. -/
theorem exec_extract_setGrid (hlen : 32 ≤ cap s → declaredLength (s.setGrid g) = declaredLength s)
    (hmsg : need (declaredLength s).toNat ≤ cap s → messageBytes (s.setGrid g) 0 (declaredLength s).toNat =
      messageBytes s 0 (declaredLength s).toNat) :
    ∃ t, exec .extract s = .next t ∧ exec .extract (s.setGrid g) = .next (t.setGrid g) := by
  have hcap : cap (s.setGrid g) = cap s := rfl
  rcases Nat.lt_or_ge (cap s) 32 with hc | hc
  · exact ⟨_, exec_extract_format hc, exec_extract_format (s := s.setGrid g) hc⟩
  rcases Nat.lt_or_ge (cap s) (need (declaredLength s).toNat) with hn | hn
  · refine ⟨_, exec_extract_truncation hc hn, ?_⟩
    rw [exec_extract_truncation (s := s.setGrid g) hc (by rwa [hlen hc]), hlen hc, hcap]
    rfl
  · refine ⟨_, exec_extract_fits hc hn, ?_⟩
    rw [exec_extract_fits (s := s.setGrid g) hc (by rwa [hlen hc]), hlen hc, hmsg hn, hcap, payWriteRange_setGrid]
    rfl

end

/-- Settles O49: agreeing on the frame means the same declared length and, where the frame fits, the same message. -/
theorem extractReadsOnlyTheFrame : Obligations.ExtractReadsOnlyTheFrame := by
  unfold Obligations.ExtractReadsOnlyTheFrame
  intro s u hu
  obtain ⟨g, rfl⟩ : ∃ g, u = s.setGrid g := ⟨u.grid, hu⟩
  refine ⟨fun hagree => ?_, fun hagree => ?_⟩
  · refine exec_extract_setGrid (fun hc => declaredLength_eq_of_cbit_eq fun k hk => ?_)
      fun hn => messageBytes_eq_of_cbit_eq fun k hk => hagree k (Nat.lt_of_lt_of_le hk hn) hk
    exact hagree k (Nat.lt_of_lt_of_le hk hc) (Nat.lt_of_lt_of_le hk (Nat.le_add_right ..))
  · exact exec_declen_setGrid fun hc => declaredLength_eq_of_cbit_eq fun k hk =>
      hagree k (Nat.lt_of_lt_of_le hk hc) hk

end Sys2Proof.Machine
end
